-- ==== Sys2Proof/Config.lean ====
section
/-! DEFINITION. The parameters of the machine (00_scope.md R4), each under a name of its own; Word.lean makes a type
of each width. The nine opcode values are a record of type `Config.Opcodes`; the assignment this machine runs
with is `opcodes` in Decode.lean, beside the check of 30_encoding.md R61 on any assignment. IMAGE is the argument of
`Machine.boot` and FUEL that of `Host.Core.run`. There is no free value: the machine leaves nothing open (40_cycle.md R70). -/

namespace Sys2Proof.Config

/-- CELLW: the width of a memory cell (10_state.md R20). -/
@[simp] abbrev cellW : Nat := 8

/-- ALEN: the width of a memory address (20_memory.md R30). UNVERIFIED (the spec's D4), log 5. -/
@[simp] abbrev alen : Nat := 8

/-- XLEN: the width of a general register (10_state.md R10). UNVERIFIED (the spec's D1), log 4. -/
@[simp] abbrev xlen : Nat := 8

/-- PCW: the width of the program counter (10_state.md R13). UNVERIFIED (the spec's D2), log 5. -/
@[simp] abbrev pcw : Nat := 8

/-- MEMSIZE: the number of memory cells (10_state.md R20). -/
abbrev memSize : Nat := 256

/-- NREGS: the number of general registers (10_state.md R10). -/
abbrev nregs : Nat := 8

/-- SP: the index of the stack pointer register (10_state.md R11). -/
abbrev sp : Fin nregs := 7

/-- SP_INIT: the reset value of register 7 (10_state.md R11). -/
def spInit : BitVec xlen := 0xF4

/-- PC_INIT: the reset value of the program counter (10_state.md R13). -/
def pcInit : BitVec pcw := 0

/-- LOAD_BASE: where the host puts the first program byte (70_reset_and_hazards.md R162). -/
def loadBase : BitVec alen := 0

/-- What every memory cell holds at reset (10_state.md R20, R25); what an unlisted address reads as. -/
def cellReset : BitVec cellW := 0

/-- REG_INDEX_POLICY: what a register operand byte of 8 or more does. The spec specifies the value `fault` only
(93_implementation_defined.md U3: the value `mask` should not be implemented): DESIGN CHOICE, log 19. -/
inductive RegIndexPolicy where
  | fault
deriving DecidableEq, Repr

/-- REG_INDEX_POLICY of this machine (30_encoding.md R57). -/
def regIndexPolicy : RegIndexPolicy := .fault

/-- WRAP_POLICY: what an address computation that leaves [0, 256) does. The rules of the spec are written for `wrap`
only (00_scope.md R4), and so is the model: DESIGN CHOICE, log 19. -/
inductive WrapPolicy where
  | wrap
deriving DecidableEq, Repr

/-- WRAP_POLICY of this machine (20_memory.md R33). -/
def wrapPolicy : WrapPolicy := .wrap

/-- The nine opcode byte values OPC_*, parameters of the machine (00_scope.md R4). -/
structure Opcodes where
  hlt  : BitVec cellW
  prn  : BitVec cellW
  ldi  : BitVec cellW
  add  : BitVec cellW
  mul  : BitVec cellW
  push : BitVec cellW
  pop  : BitVec cellW
  call : BitVec cellW
  ret  : BitVec cellW
deriving DecidableEq, Repr

end Sys2Proof.Config
end

