-- ==== Sys2Proof/Word.lean ====
section
/-! DEFINITION. The word types of the machine, one for each width parameter of 00_scope.md R4. Every value of the machine
is an unsigned number of that many bits, and all its arithmetic is that of `BitVec`, addition, subtraction and
multiplication modulo 2 to the width (R6). The four widths are equal, as the rules of the spec need them: a cell is
copied to a register and a register to an address, the program counter and back (43_stack.md R113, 44_control_flow.md
R122), with no conversion. -/

namespace Sys2Proof

/-- The value of a memory cell (10_state.md R20), of an instruction's byte and of the output stream: CELLW bits. -/
abbrev Byte := BitVec Config.cellW

/-- A memory address (20_memory.md R30): ALEN bits, so that no value is out of range (R33). -/
abbrev Addr := BitVec Config.alen

/-- The value of a general register (10_state.md R10): XLEN bits. -/
abbrev RegWord := BitVec Config.xlen

/-- The value of the program counter (10_state.md R13): PCW bits. -/
abbrev PcWord := BitVec Config.pcw

end Sys2Proof
end

