-- ==== Sys2Proof/Machine/Flags.lean ====
section
/-! DEFINITION. The machine has no status flags and no condition codes, and no instruction computes one (10_state.md
R16). What the spec calls flag bits are fields of the opcode byte, decoded afresh in every step (30_encoding.md R51);
they are here. Bit 0 is the least significant bit (00_scope.md R5). -/

namespace Sys2Proof.Machine

/-- Field N, bits 7:6: the operand count (30_encoding.md R52), `cmd >> 6`. -/
def operandCount (cmd : Byte) : Nat := (cmd >>> 6).toNat

/-- Field A, bit 5: ALU class (30_encoding.md R54). No rule reads it (40_cycle.md R79). -/
def isAlu (cmd : Byte) : Bool := cmd.getLsbD 5

/-- Field C, bit 4: the instruction sets pc itself (30_encoding.md R53). -/
def setsPc (cmd : Byte) : Bool := cmd.getLsbD 4

/-- Field I, bits 3:0: what tells apart opcodes with the same N, A and C (30_encoding.md R55). -/
def identifier (cmd : Byte) : BitVec 4 := cmd.extractLsb' 0 4

/-- The length in bytes of the instruction whose opcode byte is `cmd` (30_encoding.md R50), from bits 7:6 alone. -/
def lengthOf (cmd : Byte) : Nat := 1 + operandCount cmd

end Sys2Proof.Machine
end

