-- ==== Sys2Proof/Syntax.lean ====
section
/-! DEFINITION. The instructions: one constructor per row of spec/opcode_table.json (00_scope.md R3, a closed set of
nine). An operand is the whole operand byte as it stands in memory (30_encoding.md R56 to R58): whether a register
operand names a register is the handler's check (R57), so a term with a register operand of 8 or more is a term, and
`Instr.wf` (WellFormed.lean) refuses it. The form of the term is a DESIGN CHOICE,
log 13. -/

namespace Sys2Proof

inductive Instr where
  /-- HLT, format Z (41_system_io.md R90). -/
  | hlt
  /-- PRN r, format R (41_system_io.md R91). -/
  | prn (r : Byte)
  /-- LDI r, imm, format RI (42_data_alu.md R100). -/
  | ldi (r imm : Byte)
  /-- ADD ra, rb, format RR (42_data_alu.md R101). -/
  | add (ra rb : Byte)
  /-- MUL ra, rb, format RR (42_data_alu.md R102). -/
  | mul (ra rb : Byte)
  /-- PUSH r, format R (43_stack.md R110). -/
  | push (r : Byte)
  /-- POP r, format R (43_stack.md R111). -/
  | pop (r : Byte)
  /-- CALL r, format R (44_control.md R120). -/
  | call (r : Byte)
  /-- RET, format Z (44_control.md R121). -/
  | ret
deriving DecidableEq, Repr

end Sys2Proof
end

