-- ==== Sys2Proof/WellFormed.lean ====
section
/-! DEFINITION. Well-formed instructions: every operand byte that the format uses as a register index is 0 to 7
(30_encoding.md R56, R57). An immediate may be any byte (R58). An instruction that is not well formed decodes and
raises RegisterFault when it runs. -/

namespace Sys2Proof

/-- The operand byte `b` names a register (30_encoding.md R57). -/
def namesReg (b : Byte) : Bool := decide (b.toNat < Config.nregs)

/-- The register operands of the instruction's format name registers (30_encoding.md R56). -/
def Instr.wf : Instr → Bool
  | .hlt => true
  | .prn r => namesReg r
  | .ldi r _ => namesReg r
  | .add ra rb => namesReg ra && namesReg rb
  | .mul ra rb => namesReg ra && namesReg rb
  | .push r => namesReg r
  | .pop r => namesReg r
  | .call r => namesReg r
  | .ret => true

end Sys2Proof
end

