-- ==== Sys2Proof/Decode.lean ====
section
/-! DEFINITION. The opcode map, the decoder and the encoder (30_encoding.md). The opcode values are parameters
(00_scope.md R4): decoder and encoder take the assignment as an argument, and the machine runs with `opcodes`. -/

namespace Sys2Proof

open Machine (operandCount isAlu setsPc lengthOf)

/-- The opcode values of the table of 30_encoding.md R60. The spec takes them from general knowledge
(its decision D3): UNVERIFIED, log 3. -/
def opcodes : Config.Opcodes where
  hlt  := 0x01
  prn  := 0x47
  ldi  := 0x82
  add  := 0xA0
  mul  := 0xA2
  push := 0x45
  pop  := 0x46
  call := 0x50
  ret  := 0x11

/-- The nine values of an assignment, in the order of R60's table. -/
def Config.Opcodes.values (o : Config.Opcodes) : List Byte :=
  [o.hlt, o.prn, o.ldi, o.add, o.mul, o.push, o.pop, o.call, o.ret]

/-- R61 (a): the nine values are pairwise distinct. -/
abbrev Config.Opcodes.distinct (o : Config.Opcodes) : Prop := o.values.Nodup

/-- R61 (b): field N is the number of operand bytes the handler uses. -/
abbrev Config.Opcodes.countsFit (o : Config.Opcodes) : Prop :=
  o.values.map operandCount = [0, 1, 2, 2, 2, 1, 1, 1, 0]

/-- R61 (c): bit C is set exactly for CALL and RET. -/
abbrev Config.Opcodes.pcBitsFit (o : Config.Opcodes) : Prop :=
  o.values.map setsPc = [false, false, false, false, false, false, false, true, true]

/-- R61 (d): bit A is set for ADD and MUL and clear for PRN; of the other six the source does not say. -/
abbrev Config.Opcodes.aluBitsFit (o : Config.Opcodes) : Prop :=
  [o.add, o.mul, o.prn].map isAlu = [true, true, false]

/-- R61 (e): no value has N = 3. -/
abbrev Config.Opcodes.noCountThree (o : Config.Opcodes) : Prop :=
  ∀ v ∈ o.values, operandCount v ≠ 3

/-- The constraints (a) to (e) of 30_encoding.md R61 on an assignment of opcode values. -/
abbrev Config.Opcodes.wf (o : Config.Opcodes) : Prop :=
  o.distinct ∧ o.countsFit ∧ o.pcBitsFit ∧ o.aluBitsFit ∧ o.noCountThree

/-- Why bytes are no instruction. -/
inductive DecodeError where
  /-- The opcode byte is not one of the nine (30_encoding.md R62); the machine raises InvalidInstruction. -/
  | invalidInstruction (cmd : Byte)
  /-- A byte list ends before the instruction does. Only `decodeList` answers it; the fetch always has three bytes. -/
  | truncated
deriving DecidableEq, Repr

/-- The decoder, with an assignment of opcode values (30_encoding.md R59, 40_cycle.md R74): the whole opcode byte is
matched against the nine values, and the operand bytes the format does not have are ignored (R80). -/
def decodeWith (o : Config.Opcodes) (cmd opA opB : Byte) : Except DecodeError Instr :=
  if cmd = o.hlt then .ok .hlt
  else if cmd = o.prn then .ok (.prn opA)
  else if cmd = o.ldi then .ok (.ldi opA opB)
  else if cmd = o.add then .ok (.add opA opB)
  else if cmd = o.mul then .ok (.mul opA opB)
  else if cmd = o.push then .ok (.push opA)
  else if cmd = o.pop then .ok (.pop opA)
  else if cmd = o.call then .ok (.call opA)
  else if cmd = o.ret then .ok .ret
  else .error (.invalidInstruction cmd)

/-- The machine's decoder: the three fetched bytes (40_cycle.md R72) to an instruction or a rejection by name. -/
def decode (cmd opA opB : Byte) : Except DecodeError Instr := decodeWith opcodes cmd opA opB

/-- The opcode byte of an instruction under an assignment. -/
def Instr.opcodeWith (o : Config.Opcodes) : Instr → Byte
  | .hlt => o.hlt
  | .prn _ => o.prn
  | .ldi _ _ => o.ldi
  | .add _ _ => o.add
  | .mul _ _ => o.mul
  | .push _ => o.push
  | .pop _ => o.pop
  | .call _ => o.call
  | .ret => o.ret

/-- The opcode byte of an instruction (30_encoding.md R60). -/
def Instr.opcode (i : Instr) : Byte := i.opcodeWith opcodes

/-- The operand bytes of an instruction, at ascending addresses (30_encoding.md R56). -/
def Instr.operands : Instr → List Byte
  | .hlt => []
  | .prn r => [r]
  | .ldi r imm => [r, imm]
  | .add ra rb => [ra, rb]
  | .mul ra rb => [ra, rb]
  | .push r => [r]
  | .pop r => [r]
  | .call r => [r]
  | .ret => []

/-- The encoder under an assignment: the opcode byte, then the operand bytes (30_encoding.md R50, R66). -/
def encodeWith (o : Config.Opcodes) (i : Instr) : List Byte := i.opcodeWith o :: i.operands

/-- The encoder. -/
def encode (i : Instr) : List Byte := encodeWith opcodes i

/-- Walks memory bytes from an instruction boundary (30_encoding.md R64): the first instruction and the bytes after it,
whose length is `1 + cmd[7:6]`. Total on every list of bytes. The machine does not call it: DESIGN CHOICE, log 18. -/
def decodeListWith (o : Config.Opcodes) : List Byte → Except DecodeError (Instr × List Byte)
  | [] => .error .truncated
  | cmd :: rest =>
    match decodeWith o cmd (rest.getD 0 0) (rest.getD 1 0) with
    | .error e => .error e
    | .ok i => if rest.length < operandCount cmd then .error .truncated else .ok (i, rest.drop (operandCount cmd))

/-- `decodeListWith` under the machine's assignment. -/
def decodeList (bytes : List Byte) : Except DecodeError (Instr × List Byte) := decodeListWith opcodes bytes

/-- The first three bytes of an instruction whose bits are `w`, numbered with bit 0 the least significant bit of the
first byte; every bit above `nbits` is 0. -/
def wordBytes (nbits w : Nat) : Byte × Byte × Byte :=
  let v := w % 2 ^ nbits
  (BitVec.ofNat _ v, BitVec.ofNat _ (v / 2 ^ Config.cellW), BitVec.ofNat _ (v / 2 ^ (2 * Config.cellW)))

/-- What the decoder reads from an instruction whose bits are `w`. -/
def decodeTableWord (nbits w : Nat) : Option Instr :=
  match decode (wordBytes nbits w).1 (wordBytes nbits w).2.1 (wordBytes nbits w).2.2 with
  | .ok i => some i
  | .error _ => none

end Sys2Proof
end

