-- ==== Sys2Proof/Machine/State.lean ====
section
/-! DEFINITION. The state of the Machine, all of it (10_state.md R24: the register file, pc, run, cause, info, mem and
out are the whole state), as plain data, and its value after reset (R25). -/

namespace Sys2Proof.Machine

/-- The index of a general register, 0 to 7 (10_state.md R10). -/
abbrev RegIx := Fin Config.nregs

/-- The run state (10_state.md R17). -/
inductive RunState where
  | running
  /-- Entered by HLT only. -/
  | halted
  /-- Entered by a fault only. -/
  | faulted
deriving DecidableEq, Repr

/-- The values of the fault cause register, with the codes 0 to 4 in this order (60_exceptions.md R136). -/
inductive Cause where
  /-- Code 0: the reset value, and the value while `run` is RUNNING or HALTED. -/
  | none
  /-- Code 1: the opcode byte is not one of the nine (R131). -/
  | invalidInstruction
  /-- Code 2: kept for fidelity; no rule writes it (R132). -/
  | unsupportedALUOperation
  /-- Code 3: a register operand byte of 8 or more (R133). -/
  | registerFault
  /-- Code 4: kept for fidelity; no rule writes it (R134). -/
  | memoryFault
deriving DecidableEq, Repr

/-- The numeric code of a cause (60_exceptions.md R136). UNVERIFIED (the spec's D9), log 17. -/
def Cause.code : Cause → Nat
  | .none => 0
  | .invalidInstruction => 1
  | .unsupportedALUOperation => 2
  | .registerFault => 3
  | .memoryFault => 4

/-- What fault entry is given: `raise F(info)` (00_scope.md R7). -/
structure FaultEntry where
  cause : Cause
  info  : Byte
deriving DecidableEq, Repr

/-- The 256 cells as a list of (address, byte) in one canonical form (`Memory.wf`); an address that is not listed
reads `Config.cellReset`. The form is a DESIGN CHOICE, log 10. -/
abbrev Memory := List Host.Cell

/-- The canonical form: addresses strictly rising and below 256, and no entry equal to what an unlisted address
reads as. -/
abbrev Memory.wf (m : Memory) : Prop :=
  m.Pairwise (fun c d => c.1 < d.1) ∧ ∀ c ∈ m, c.1 < Config.memSize ∧ c.2 ≠ Config.cellReset

structure State where
  /-- The general registers x[0] to x[7] (10_state.md R10); x[7] is the stack pointer (R11). -/
  regs  : Vector RegWord Config.nregs
  /-- The program counter (R13): during an instruction, the address of its own opcode byte (R14). -/
  pc    : PcWord
  /-- The run state (R17). -/
  run   : RunState
  /-- The fault cause register (R18). -/
  cause : Cause
  /-- The fault information register (R18). -/
  info  : Byte
  /-- Memory (R20). -/
  mem   : Memory
  /-- The output stream, oldest value first (R21). -/
  out   : List Byte
deriving DecidableEq, Repr

/-- Why a step would stop with no next state. There is no constructor: a fault of this machine is the run state FAULTED
with `cause` and `info` written (60_exceptions.md R139), a NEXT state in which everything stays readable, and no rule
of the spec stops the machine any other way (log 2). The empty type is a DESIGN CHOICE, log 20. Nobody raises it; safe. -/
inductive Fault where
deriving DecidableEq, Repr

/-- Why an instruction has no meaning. -/
inductive Refusal where
  /-- Raised by an arm of `exec` whose instruction has no meaning yet: no arm of this model. Safe: the model stops. -/
  | notModelled (mnemonic : String)
deriving DecidableEq, Repr

/-- The state right after reset, before the host loads a program (10_state.md R25, 70_reset_and_hazards.md R161). -/
def State.reset : State where
  regs  := #v[0, 0, 0, 0, 0, 0, 0, Config.spInit]
  pc    := Config.pcInit
  run   := .running
  cause := .none
  info  := 0
  mem   := []
  out   := []

/-- The outcomes of this machine. -/
abbrev Result := Host.Outcome State Fault Refusal

end Sys2Proof.Machine
end

