-- ==== Sys2Proof/Machine/Ops.lean ====
section
/-! DEFINITION. The named operations over memory, registers and the output stream (00_scope.md R7's primitives), and
fault entry, the one shared operation of every fault (60_exceptions.md R139). There is no return from a fault (R140). -/

namespace Sys2Proof.Machine

/-- Address addition, modulo 256 (00_scope.md R6, 20_memory.md R33). UNVERIFIED (the spec's D2, D4), log 5. -/
def addrAdd (a k : Addr) : Addr :=
  match Config.wrapPolicy with
  | .wrap => a + k

/-- Address subtraction, modulo 256 (00_scope.md R6, 20_memory.md R33). -/
def addrSub (a k : Addr) : Addr :=
  match Config.wrapPolicy with
  | .wrap => a - k

/-- Lists the cell unless it holds what an unlisted address reads as. -/
def Memory.consCell (a : Nat) (v : Byte) (m : Memory) : Memory :=
  if v = Config.cellReset then m else (a, v) :: m

/-- The content of the cell at `a`. -/
def Memory.get : Memory → Nat → Byte
  | [], _ => Config.cellReset
  | (b, v) :: m, a => if a = b then v else Memory.get m a

/-- The memory with the cell at `a` holding `v`, in canonical form. -/
def Memory.put : Memory → Nat → Byte → Memory
  | [], a, v => Memory.consCell a v []
  | (b, w) :: m, a, v =>
    if a < b then Memory.consCell a v ((b, w) :: m)
    else if a = b then Memory.consCell a v m
    else (b, w) :: Memory.put m a v

/-- MemRead(a, 1) (20_memory.md R32). -/
def State.memRead (s : State) (a : Addr) : Byte := Memory.get s.mem a.toNat

/-- MemWrite(a, 1, v) (20_memory.md R32). -/
def State.memWrite (s : State) (a : Addr) (v : Byte) : State := { s with mem := Memory.put s.mem a.toNat v }

/-- `x[r]` (10_state.md R10). No register is hardwired (R12). -/
def State.reg (s : State) (r : RegIx) : RegWord := s.regs.get r

/-- `x[r] <- v`. -/
def State.setReg (s : State) (r : RegIx) (v : RegWord) : State := { s with regs := s.regs.set r.val v r.isLt }

/-- `x[7]`, the stack pointer (10_state.md R11). -/
def State.sp (s : State) : Addr := s.reg Config.sp

/-- `x[7] <- x[7] -8 1`: the pre-decrement of PUSH and CALL (43_stack.md R112). -/
def State.decSp (s : State) : State := s.setReg Config.sp (addrSub s.sp 1)

/-- `x[7] <- x[7] +8 1`: the post-increment of POP and RET (43_stack.md R112). -/
def State.incSp (s : State) : State := s.setReg Config.sp (addrAdd s.sp 1)

/-- `MemWrite(x[7], 1, v)`. -/
def State.writeTop (s : State) (v : Byte) : State := s.memWrite s.sp v

/-- `MemRead(x[7], 1)`. -/
def State.readTop (s : State) : Byte := s.memRead s.sp

/-- `pc <- t`. -/
def State.setPc (s : State) (t : PcWord) : State := { s with pc := t }

/-- `run <- r` (10_state.md R17). -/
def State.setRun (s : State) (r : RunState) : State := { s with run := r }

/-- `Out(v)`: appends `v` to the output stream (10_state.md R21). -/
def State.emit (s : State) (v : Byte) : State := { s with out := s.out ++ [v] }

/-- The state after fault entry from `s`, the state at the START of the step (60_exceptions.md R139): every write of
the step is discarded, `run`, `cause` and `info` are written, and `pc` keeps the address of the opcode byte. UNVERIFIED (the spec's D8), log 2. -/
def State.enterFault (s : State) (f : FaultEntry) : State :=
  { s with run := .faulted, cause := f.cause, info := f.info }

/-- `raise F(v)` in a step that began in `s` (60_exceptions.md R139): a next state, FAULTED. -/
def raise (f : FaultEntry) (s : State) : Result := .next (s.enterFault f)

/-- Puts bytes at ascending addresses from `a`, wrapping (the host's loading, 70_reset_and_hazards.md R162). -/
def State.placeBytes (s : State) (a : Addr) : List Byte → State
  | [] => s
  | b :: rest => (s.memWrite a b).placeBytes (addrAdd a 1) rest

end Sys2Proof.Machine
end

