-- ==== Sys2Proof/Machine/Operands.lean ====
section
/-! DEFINITION. The two operand forms (30_encoding.md R56): a register operand (R57) and an immediate (R58). Both are
whole bytes; there are no sub-byte fields and no addressing modes. -/

namespace Sys2Proof.Machine

/-- `RegIndex(b)` (30_encoding.md R57): the register that operand byte `b` names, or RegisterFault(b). Not masked.
UNVERIFIED (the spec's D5), log 6. -/
def regIndex (b : Byte) : Except FaultEntry RegIx :=
  if h : b.toNat < Config.nregs then .ok ⟨b.toNat, h⟩
  else
    match Config.regIndexPolicy with
    | .fault => .error ⟨.registerFault, b⟩

/-- `r <- RegIndex(b)` at the head of a handler, before it writes any state (60_exceptions.md R133): goes on with the
register, or raises in the state `s` at the start of the step. -/
def withReg (b : Byte) (s : State) (k : RegIx → Result) : Result :=
  match regIndex b with
  | .ok r => k r
  | .error f => raise f s

/-- An immediate operand: the byte as it is, neither extended nor scaled (30_encoding.md R58). -/
def immediate (b : Byte) : Byte := b

end Sys2Proof.Machine
end

