-- ==== Sys2Proof/Machine/Control.lean ====
section
/-! DEFINITION. The control transfers CALL and RET (44_control.md), the only handlers that write `pc` (10_state.md
R15). A meaning is the handler only; the loop does not advance `pc` after these two (40_cycle.md R75). -/

namespace Sys2Proof.Machine

/-- The return address CALL stores: `pc +8 2`, with `pc` the address of the CALL opcode byte (10_state.md R14). -/
def returnAddress (s : State) : Byte := addrAdd s.pc 2

/-- CALL r (44_control.md R120): decrement, store the return address, then jump to `x[r]`, read after the decrement.
The order for register 7 is UNVERIFIED (the spec's D14), log 7. -/
def execCall (opA : Byte) (s : State) : Result :=
  withReg opA s fun r =>
    let s1 := s.decSp
    let s2 := s1.writeTop (returnAddress s1)
    .next (s2.setPc (s2.reg r))

/-- RET (44_control.md R121): read the top of the stack, increment, jump to the byte read. -/
def execRet (s : State) : Result :=
  let t := s.readTop
  .next (s.incSp.setPc t)

end Sys2Proof.Machine
end

