-- ==== Sys2Proof/Machine/DataAlu.lean ====
section
/-! DEFINITION. The load-immediate and arithmetic instructions LDI, ADD and MUL (42_data_alu.md). Arithmetic is modulo
256 and sets no flag (R103; UNVERIFIED, the spec's D1, log 4). A meaning is the handler only. -/

namespace Sys2Proof.Machine

/-- LDI r, imm (42_data_alu.md R100). -/
def execLdi (opA opB : Byte) (s : State) : Result :=
  withReg opA s fun r => .next (s.setReg r (immediate opB))

/-- ADD ra, rb (42_data_alu.md R101): `x[a] <- (x[a] + x[b]) mod 256`. -/
def execAdd (opA opB : Byte) (s : State) : Result :=
  withReg opA s fun a => withReg opB s fun b => .next (s.setReg a (s.reg a + s.reg b))

/-- MUL ra, rb (42_data_alu.md R102): `x[a] <- (x[a] * x[b]) mod 256`. -/
def execMul (opA opB : Byte) (s : State) : Result :=
  withReg opA s fun a => withReg opB s fun b => .next (s.setReg a (s.reg a * s.reg b))

end Sys2Proof.Machine
end

