-- ==== Sys2Proof/Machine/Stack.lean ====
section
/-! DEFINITION. The stack instructions PUSH and POP (43_stack.md), a descending stack whose pointer addresses the last
item pushed (R112). Their statements run in the order the rules write them, which matters when the operand is register
7 (00_scope.md R7; UNVERIFIED, the spec's D14, log 7). A meaning is the handler only. -/

namespace Sys2Proof.Machine

/-- PUSH r (43_stack.md R110): decrement, then store `x[r]`, read after the decrement, at the new stack pointer. -/
def execPush (opA : Byte) (s : State) : Result :=
  withReg opA s fun r =>
    let s1 := s.decSp
    .next (s1.writeTop (s1.reg r))

/-- POP r (43_stack.md R111): load from the current stack pointer, then increment `x[7]` as it is after the load. -/
def execPop (opA : Byte) (s : State) : Result :=
  withReg opA s fun r =>
    let s1 := s.setReg r s.readTop
    .next s1.incSp

end Sys2Proof.Machine
end

