-- ==== Sys2Proof/Machine/System.lean ====
section
/-! DEFINITION. The system and output instructions HLT and PRN (41_system_io.md). A meaning is the handler only: the
fetch before it and the pc update after it are the loop's (Cycle.lean). -/

namespace Sys2Proof.Machine

/-- HLT (41_system_io.md R90): `run <- HALTED`; `pc` stays at the HLT (40_cycle.md R76).
UNVERIFIED (the spec's D6, D7), log 8. -/
def execHlt (s : State) : Result := .next (s.setRun .halted)

/-- PRN r (41_system_io.md R91): appends `x[r]` to the output stream. -/
def execPrn (opA : Byte) (s : State) : Result :=
  withReg opA s fun r => .next (s.emit (s.reg r))

end Sys2Proof.Machine
end

