-- ==== Sys2Proof/Machine/Cycle.lean ====
section
/-! DEFINITION. The execution loop's one pass: fetch, decode, dispatch, pc update (40_cycle.md R71 to R76, R81). -/

namespace Sys2Proof.Machine

/-- The three bytes of a fetch, temporaries of the step (10_state.md R22). -/
structure Fetched where
  cmd : Byte
  opA : Byte
  opB : Byte
deriving DecidableEq, Repr

/-- Step part 1 (40_cycle.md R72): three reads, whatever the opcode. -/
def fetch (s : State) : Fetched where
  cmd := s.memRead s.pc
  opA := s.memRead (addrAdd s.pc 1)
  opB := s.memRead (addrAdd s.pc 2)

/-- Step part 4 (40_cycle.md R75, R76): if the run goes on and `C = 0`, `pc <- pc +8 (1 + n)`, from the opcode byte. -/
def pcUpdate (cmd : Byte) (s : State) : State :=
  if s.run = .running ∧ setsPc cmd = false then s.setPc (addrAdd s.pc (BitVec.ofNat Config.pcw (lengthOf cmd))) else s

/-- Step parts 3 and 4 for the fetched bytes: an unrecognised opcode raises InvalidInstruction (60_exceptions.md R131),
before any operand byte is looked at (R138). -/
def dispatch (f : Fetched) (s : State) : Result :=
  match decode f.cmd f.opA f.opB with
  | .error _ => raise ⟨.invalidInstruction, f.cmd⟩ s
  | .ok i =>
    match exec i s with
    | .next t => .next (pcUpdate f.cmd t)
    | .fault r => .fault r
    | .refused r => .refused r

/-- One pass of the loop. When `run` is HALTED or FAULTED the machine takes no step and no state changes (40_cycle.md
R71): the answer is the same state. DESIGN CHOICE, log 1. -/
def cycle (s : State) : Result :=
  if s.run = .running then dispatch (fetch s) s else .next s

end Sys2Proof.Machine
end

