-- ==== Sys2Proof/Machine/Step.lean ====
section
/-! DEFINITION. The step function (40_cycle.md R81) and the placing of one instruction where it fetches next. -/

namespace Sys2Proof.Machine

/-- One step of the machine. -/
def step (s : State) : Host.Outcome State Fault Refusal := cycle s

/-- `s` with the instruction whose bits are `w` at `pc`, and RUNNING, since only a running machine fetches.
DESIGN CHOICE, log 14. -/
def State.withFetchWord (s : State) (nbits w : Nat) : State :=
  (s.setRun .running).placeBytes s.pc [(wordBytes nbits w).1, (wordBytes nbits w).2.1, (wordBytes nbits w).2.2]

end Sys2Proof.Machine
end

