-- ==== Sys2Proof/Machine/Boot.lean ====
section
/-! DEFINITION. What the host does around a run: reset, the loader and boot (70_reset_and_hazards.md), and what it makes
of a state (60_exceptions.md R146, R148; 41_system_io.md R92). None of it is a step of the machine: the loader, the
exit statuses, the decimal text and the trace are surrounding software (00_scope.md R2). -/

namespace Sys2Proof.Machine

/-- Reset, whatever the state was before (70_reset_and_hazards.md R160): nothing survives it. An event of the host,
no step: DESIGN CHOICE, log 15. -/
def hostReset (_ : State) : State := State.reset

/-- The launch state (70_reset_and_hazards.md R162): reset, then byte `i` of the image at address `i`. The host refuses
an image of more than 256 bytes and the machine does not run (R165). -/
def boot (image : List Byte) : Option State :=
  if image.length ≤ Config.memSize then some (State.reset.placeBytes Config.loadBase image) else none

/-- Why the host's loader refuses a file; the machine takes no step (60_exceptions.md R135, 70_reset_and_hazards.md
R164, R165). -/
inductive LoadError where
  /-- The file is missing or cannot be read (R164). -/
  | unreadable
  /-- A line is not a base-2 literal (R165). -/
  | notBase2
  /-- A line's value is above 255 (R165). -/
  | overWide
  /-- The program has more than 256 bytes (R165). -/
  | overLong
deriving DecidableEq, Repr

/-- A text as its lines (30_encoding.md R67). The spec does not say what ends a line. A line ends at the line feed
alone; a lone carriage return ends no line and is white space: DESIGN CHOICE, log 16. -/
def splitLines : List Char → List (List Char)
  | [] => [[]]
  | c :: cs =>
    if c = '\n' then [] :: splitLines cs
    else
      match splitLines cs with
      | l :: ls => (c :: l) :: ls
      | [] => [[c]]

/-- A line without its comment (70_reset_and_hazards.md R163). -/
def stripComment (line : List Char) : List Char := line.takeWhile (· ≠ '#')

/-- A line without the white space at its ends (70_reset_and_hazards.md R163). -/
def trim (line : List Char) : List Char :=
  ((line.dropWhile Char.isWhitespace).reverse.dropWhile Char.isWhitespace).reverse

/-- The value of a base-2 literal, digits 0 and 1 only, most significant first; `n` is the value read so far. -/
def base2From (n : Nat) : List Char → Option Nat
  | [] => some n
  | c :: cs =>
    if c = '0' then base2From (2 * n) cs
    else if c = '1' then base2From (2 * n + 1) cs
    else none

/-- One line of a program file: no byte, one byte, or a refusal (30_encoding.md R67, 70_reset_and_hazards.md R165).
What counts as white space, as the end of a line and as a literal is a DESIGN CHOICE, log 16. -/
def loadLine (line : List Char) : Except LoadError (Option Byte) :=
  match trim (stripComment line) with
  | [] => .ok none
  | d :: ds =>
    match base2From 0 (d :: ds) with
    | none => .error .notBase2
    | some n => if n < 2 ^ Config.cellW then .ok (some (BitVec.ofNat Config.cellW n)) else .error .overWide

/-- The bytes of a program file's lines, in order (30_encoding.md R67). -/
def loadLines : List (List Char) → Except LoadError (List Byte)
  | [] => .ok []
  | l :: ls =>
    match loadLine l with
    | .error e => .error e
    | .ok b =>
      match loadLines ls with
      | .error e => .error e
      | .ok bs => .ok (b.toList ++ bs)

/-- The host's loader on a file's text, `none` for a file that cannot be read (70_reset_and_hazards.md R163 to R165). -/
def loadText : Option (List Char) → Except LoadError (List Byte)
  | none => .error .unreadable
  | some text =>
    match loadLines (splitLines text) with
    | .error e => .error e
    | .ok bs => if bs.length ≤ Config.memSize then .ok bs else .error .overLong

/-- The process exit status the host gives a state (60_exceptions.md R148): none while the machine runs.
UNVERIFIED (the spec's D10), log 12. -/
def exitStatus (s : State) : Option Nat :=
  match s.run with
  | .running => none
  | .halted => some 0
  | .faulted => some 2

/-- The exit status of a loader failure (60_exceptions.md R148, 70_reset_and_hazards.md R164). -/
def loadErrorStatus (_ : LoadError) : Nat := 2

/-- The decimal digit of a number below 10. -/
def digit (n : Nat) : Char := Char.ofNat (48 + n)

/-- The decimal numeral of an unsigned byte: no sign, no leading zeros, `0` for zero (41_system_io.md R92). -/
def decimal (v : Byte) : List Char :=
  let n := v.toNat
  if n < 10 then [digit n]
  else if n < 100 then [digit (n / 10), digit (n % 10)]
  else [digit (n / 100), digit (n / 10 % 10), digit (n % 10)]

/-- The output stream as the host's text: each value, then one line feed (41_system_io.md R92).
UNVERIFIED (the spec's D11), log 11. -/
def renderOut : List Byte → List Char
  | [] => []
  | v :: vs => decimal v ++ '\n' :: renderOut vs

/-- The read-only view of the trace utility (60_exceptions.md R146). -/
structure TraceView where
  pc    : PcWord
  cells : List Byte
  regs  : List RegWord
deriving DecidableEq, Repr

/-- What a host may look at between steps (60_exceptions.md R146): `pc`, the next three cells, the eight registers. -/
def traceView (s : State) : TraceView where
  pc    := s.pc
  cells := [s.memRead s.pc, s.memRead (addrAdd s.pc 1), s.memRead (addrAdd s.pc 2)]
  regs  := s.regs.toList

end Sys2Proof.Machine
end

