-- ==== Sys2Proof/Safety.lean ====
section
/-! DEFINITION. The terms claims use: what a sound state is, when a run has ended, and the parts of a frame (what an
instruction leaves as it was, memory read byte by byte). -/

namespace Sys2Proof.Safety

open Sys2Proof.Machine

/-- The run has ended: nothing follows but reset (40_cycle.md R78). -/
abbrev Ended (s : State) : Prop := s.run ≠ .running

/-- `run`, `cause` and `info` agree with each other and with the bytes at `pc`: RUNNING or HALTED has cause None and
info 0 (60_exceptions.md R136), HALTED stands at a HLT (41_system_io.md R90), and FAULTED stands at the instruction
that raised the recorded fault, one that the spec lets a rule raise (R131 to R134, R139). -/
abbrev StatusSound (s : State) : Prop :=
  (s.run = .running → s.cause = .none ∧ s.info = 0) ∧
  (s.run = .halted → s.cause = .none ∧ s.info = 0 ∧ (fetch s).cmd = opcodes.hlt) ∧
  (s.run = .faulted →
    (s.cause = .invalidInstruction ∧ s.info = (fetch s).cmd ∧ s.info ∉ opcodes.values) ∨
    (s.cause = .registerFault ∧ namesReg s.info = false ∧ (s.info = (fetch s).opA ∨ s.info = (fetch s).opB)))

/-- The invariant of the machine: memory in canonical form, and a sound status. -/
abbrev Inv (s : State) : Prop := Memory.wf s.mem ∧ StatusSound s

/-- The operand byte that names register `r` (30_encoding.md R57). -/
abbrev regByte (r : RegIx) : Byte := BitVec.ofNat Config.cellW r.val

/-- Every register but those of `rs` is as it was. -/
abbrev RegsExcept (rs : List RegIx) (s t : State) : Prop := ∀ r, r ∉ rs → t.reg r = s.reg r

/-- Every byte of memory reads as it did. -/
abbrev MemSame (s t : State) : Prop := ∀ a, t.memRead a = s.memRead a

/-- Every byte of memory but the one at `b` reads as it did. -/
abbrev MemExcept (b : Addr) (s t : State) : Prop := ∀ a, a ≠ b → t.memRead a = s.memRead a

/-- The control registers are as they were. -/
abbrev StatusSame (s t : State) : Prop := t.run = s.run ∧ t.cause = s.cause ∧ t.info = s.info

/-- `t` is `s` after RegisterFault(v): nothing but `run`, `cause` and `info` changed (60_exceptions.md R133, R139). -/
abbrev RegisterFaulted (v : Byte) (s t : State) : Prop :=
  t = { s with run := .faulted, cause := .registerFault, info := v }

end Sys2Proof.Safety
end

