-- ==== Sys2Proof/Certificates/Slice0/Obligations.lean ====
section
/-! DEFINITION. The statements for the provers. Numerals such as 0x82 are the opcode values of 30_encoding.md R60. -/

open Sys2Proof Sys2Proof.Machine Sys2Proof.Safety

/-! ### encoding -/

/-- Words written out from the encodings of 30_encoding.md R60 and R66 decode to what they stand for. The opcode values
are the spec's choice D3 (log 3). -/
def Obligations.DecodesWordsWrittenFromTheSpec : Prop :=
  decodeList [0x01] = .ok (.hlt, []) ∧
  decodeList [0x47, 0x03] = .ok (.prn 3, []) ∧
  decodeList [0x82, 0x02, 0xC8] = .ok (.ldi 2 200, []) ∧
  decodeList [0xA0, 0x00, 0x01] = .ok (.add 0 1, []) ∧
  decodeList [0xA2, 0x03, 0x04] = .ok (.mul 3 4, []) ∧
  decodeList [0x45, 0x05, 0x11] = .ok (.push 5, [0x11]) ∧
  decodeList [0x46, 0x02] = .ok (.pop 2, []) ∧
  decodeList [0x50, 0x01] = .ok (.call 1, []) ∧
  decodeList [0x11] = .ok (.ret, []) ∧
  decodeList [0xC1, 0x09, 0x09] = .error (.invalidInstruction 0xC1)

/-- The four fields N, A, C and I make up the opcode byte, at the bit positions of 30_encoding.md R51. -/
def Obligations.OpcodeByteIsItsFourFields : Prop :=
  ∀ cmd : Byte, cmd.toNat =
    64 * operandCount cmd + 32 * (isAlu cmd).toNat + 16 * (setsPc cmd).toNat + (identifier cmd).toNat

/-- The opcode values the machine runs with meet the constraints (a) to (e) of 30_encoding.md R61. The values are the
spec's choice D3 (log 3). -/
def Obligations.OpcodeValuesMeetTheConstraints : Prop := opcodes.wf

/-- Decoding the encoding of an instruction gives it back, whatever bytes follow: every instruction, every operand
byte (30_encoding.md R50, R56). -/
def Obligations.DecodeOfEncodeIsTheInstruction : Prop :=
  ∀ (i : Instr) (rest : List Byte), decodeList (encode i ++ rest) = .ok (i, rest)

/-- Bytes that decode are the encoding of what they decode to, followed by the bytes left over: each encoding has one
meaning and no second encoding (30_encoding.md R59, R64). -/
def Obligations.EncodeOfDecodeIsTheBytes : Prop :=
  ∀ (bytes rest : List Byte) (i : Instr), decodeList bytes = .ok (i, rest) → bytes = encode i ++ rest

/-- The round trip holds for every assignment of opcode values that meets 30_encoding.md R61, not for the default
values alone (00_scope.md R4). -/
def Obligations.RoundTripUnderAnyOpcodeAssignment : Prop :=
  ∀ o : Config.Opcodes, o.wf → ∀ (i : Instr) (rest : List Byte),
    decodeListWith o (encodeWith o i ++ rest) = .ok (i, rest)

/-- An operand byte that an instruction does not have cannot change what is decoded (40_cycle.md R80). -/
def Obligations.UnusedOperandBytesAreIgnored : Prop :=
  ∀ cmd a b a' b' : Byte,
    (operandCount cmd = 0 → decode cmd a b = decode cmd a' b') ∧
    (operandCount cmd = 1 → decode cmd a b = decode cmd a b')

/-! ### the step -/

/-- The fetch reads the three bytes at `pc`, `pc + 1` and `pc + 2`, addresses modulo 256 (40_cycle.md R72, 20_memory.md
R33). The wrap is the spec's choice D4 (log 5). -/
def Obligations.FetchReadsThreeBytesFromPc : Prop :=
  ∀ s : State,
    (fetch s).cmd = Memory.get s.mem s.pc.toNat ∧
    (fetch s).opA = Memory.get s.mem ((s.pc.toNat + 1) % 256) ∧
    (fetch s).opB = Memory.get s.mem ((s.pc.toNat + 2) % 256)

/-- A running machine runs the instruction its fetched bytes decode to, and then, if the run goes on and bit 4 of the
opcode byte is 0, adds `1 + (cmd >> 6)` to `pc` (40_cycle.md R75). -/
def Obligations.StepRunsTheDecodedInstruction : Prop :=
  ∀ (s : State) (i : Instr), s.run = .running → decode (fetch s).cmd (fetch s).opA (fetch s).opB = .ok i →
    step s =
      match exec i s with
      | .next t =>
        .next (if t.run = .running ∧ (fetch s).cmd.getLsbD 4 = false
          then { t with pc := t.pc + (1 + ((fetch s).cmd >>> 6)) } else t)
      | .fault r => .fault r
      | .refused r => .refused r

/-- If the bytes from `pc` on are the encoding of `i`, a running machine runs `i` and then, unless the run ended or `i`
is CALL or RET, moves `pc` past those bytes (30_encoding.md R50, R61; 40_cycle.md R74, R75). -/
def Obligations.EncodedBytesAtPcRunTheirInstruction : Prop :=
  ∀ (s : State) (i : Instr), s.run = .running →
    (∀ k (h : k < (encode i).length), s.memRead (s.pc + BitVec.ofNat 8 k) = (encode i)[k]) →
    step s =
      match exec i s with
      | .next t =>
        .next (if t.run = .running ∧ i ≠ .ret ∧ ∀ b, i ≠ .call b
          then { t with pc := t.pc + BitVec.ofNat 8 (encode i).length } else t)
      | .fault r => .fault r
      | .refused r => .refused r

/-- Whether RUNNING or not, the machine always answers a next state: it never stops without one. On RUNNING states this
is the remark of 70_reset_and_hazards.md R170 (marked derived there); on the others it is the model's choice, log 1. -/
def Obligations.EveryStepAnswersANextState : Prop :=
  ∀ s : State, ∃ t, step s = .next t

/-- HALTED and FAULTED are terminal: no number of steps changes anything (40_cycle.md R71, 10_state.md R17). That a step
which is not taken answers the same state is the model's choice, log 1. -/
def Obligations.EndedMachineNeverChanges : Prop :=
  ∀ (s : State) (n : Nat), Ended s → step s = .next s ∧ Sys2Proof.core.run n s = .next s

/-- The `pc` after each kind of step (40_cycle.md R82, marked derived there): past the instruction, the target of CALL,
the byte RET read; unchanged when the run ends. -/
def Obligations.PcAfterEachKindOfStep : Prop :=
  ∀ (s t : State) (i : Instr), s.run = .running → decode (fetch s).cmd (fetch s).opA (fetch s).opB = .ok i →
    step s = .next t →
    (t.run ≠ .running → t.pc = s.pc) ∧
    (t.run = .running →
      match i with
      | .hlt => False
      | .prn _ => t.pc = s.pc + 2
      | .ldi _ _ => t.pc = s.pc + 3
      | .add _ _ => t.pc = s.pc + 3
      | .mul _ _ => t.pc = s.pc + 3
      | .push _ => t.pc = s.pc + 2
      | .pop _ => t.pc = s.pc + 2
      | .call b => ∃ r : RegIx, b = regByte r ∧ t.pc = if r = 7 then s.sp - 1 else s.reg r
      | .ret => t.pc = s.memRead s.sp)

/-! ### the instructions: each completes, with its effect and its frame -/

/-- HLT answers a next state that is HALTED and has nothing else changed, `pc` included, as a handler and as a step
(41_system_io.md R90). The terminal state and the kept `pc` are the spec's choices D6 and D7 (log 8). -/
def Obligations.HltHaltsAndKeepsPc : Prop :=
  ∀ s : State,
    exec .hlt s = .next { s with run := .halted } ∧
    (s.run = .running → (fetch s).cmd = 0x01 → step s = .next { s with run := .halted })

/-- PRN r appends the value of `x[r]` to the output stream and changes nothing else but `pc`; an operand of 8 or more is
a RegisterFault and emits nothing (41_system_io.md R91, whose exception is the spec's D5 and D8, log 6, log 2). -/
def Obligations.PrnEmitsTheRegister : Prop :=
  ∀ s : State,
    (∀ r : RegIx, ∃ t, exec (.prn (regByte r)) s = .next t ∧
      t.out = s.out ++ [s.reg r] ∧
      RegsExcept [] s t ∧ MemSame s t ∧ StatusSame s t ∧ t.pc = s.pc ∧
      (s.run = .running → (fetch s).cmd = 0x47 → (fetch s).opA = regByte r →
        step s = .next { t with pc := s.pc + 2 })) ∧
    (∀ b : Byte, 8 ≤ b.toNat → ∃ t, exec (.prn b) s = .next t ∧ RegisterFaulted b s t)

/-- LDI r, imm puts the immediate byte, unchanged, into `x[r]` and changes nothing else but `pc`; a register operand of 8
or more is a RegisterFault (42_data_alu.md R100, whose exception is the spec's D5 and D8, log 6, log 2). -/
def Obligations.LdiLoadsTheImmediate : Prop :=
  ∀ (s : State) (imm : Byte),
    (∀ r : RegIx, ∃ t, exec (.ldi (regByte r) imm) s = .next t ∧
      t.reg r = imm ∧
      RegsExcept [r] s t ∧ MemSame s t ∧ StatusSame s t ∧ t.out = s.out ∧ t.pc = s.pc ∧
      (s.run = .running → (fetch s).cmd = 0x82 → (fetch s).opA = regByte r → (fetch s).opB = imm →
        step s = .next { t with pc := s.pc + 3 })) ∧
    (∀ b : Byte, 8 ≤ b.toNat → ∃ t, exec (.ldi b imm) s = .next t ∧ RegisterFaulted b s t)

/-- ADD ra, rb puts `(x[a] + x[b]) mod 256` into `x[a]` and changes nothing else but `pc`; a register operand of 8 or
more is a RegisterFault, for `ra` first (42_data_alu.md R101, whose exception is the spec's D5 and D8, log 6, log 2). -/
def Obligations.AddAddsModulo256 : Prop :=
  ∀ s : State,
    (∀ a b : RegIx, ∃ t, exec (.add (regByte a) (regByte b)) s = .next t ∧
      (t.reg a).toNat = ((s.reg a).toNat + (s.reg b).toNat) % 256 ∧
      RegsExcept [a] s t ∧ MemSame s t ∧ StatusSame s t ∧ t.out = s.out ∧ t.pc = s.pc ∧
      (s.run = .running → (fetch s).cmd = 0xA0 → (fetch s).opA = regByte a → (fetch s).opB = regByte b →
        step s = .next { t with pc := s.pc + 3 })) ∧
    (∀ u v : Byte, 8 ≤ u.toNat → ∃ t, exec (.add u v) s = .next t ∧ RegisterFaulted u s t) ∧
    (∀ u v : Byte, u.toNat < 8 → 8 ≤ v.toNat → ∃ t, exec (.add u v) s = .next t ∧ RegisterFaulted v s t)

/-- MUL ra, rb puts `(x[a] * x[b]) mod 256` into `x[a]` and changes nothing else but `pc`; a register operand of 8 or
more is a RegisterFault, for `ra` first (42_data_alu.md R102, whose exception is the spec's D5 and D8, log 6, log 2). -/
def Obligations.MulMultipliesModulo256 : Prop :=
  ∀ s : State,
    (∀ a b : RegIx, ∃ t, exec (.mul (regByte a) (regByte b)) s = .next t ∧
      (t.reg a).toNat = ((s.reg a).toNat * (s.reg b).toNat) % 256 ∧
      RegsExcept [a] s t ∧ MemSame s t ∧ StatusSame s t ∧ t.out = s.out ∧ t.pc = s.pc ∧
      (s.run = .running → (fetch s).cmd = 0xA2 → (fetch s).opA = regByte a → (fetch s).opB = regByte b →
        step s = .next { t with pc := s.pc + 3 })) ∧
    (∀ u v : Byte, 8 ≤ u.toNat → ∃ t, exec (.mul u v) s = .next t ∧ RegisterFaulted u s t) ∧
    (∀ u v : Byte, u.toNat < 8 → 8 ≤ v.toNat → ∃ t, exec (.mul u v) s = .next t ∧ RegisterFaulted v s t)

/-- PUSH r decrements `x[7]` and stores at the new stack pointer: `x[r]`, or for `r = 7` the decremented pointer itself
(43_stack.md R110; the `r = 7` order is the spec's choice D14, log 7). Every other byte and register is as it was. -/
def Obligations.PushStoresBelowTheStackPointer : Prop :=
  ∀ s : State,
    (∀ r : RegIx, Memory.wf s.mem → ∃ t, exec (.push (regByte r)) s = .next t ∧
      t.sp = s.sp - 1 ∧
      t.memRead (s.sp - 1) = (if r = 7 then s.sp - 1 else s.reg r) ∧ MemExcept (s.sp - 1) s t ∧
      RegsExcept [7] s t ∧ StatusSame s t ∧ t.out = s.out ∧ t.pc = s.pc ∧
      (s.run = .running → (fetch s).cmd = 0x45 → (fetch s).opA = regByte r →
        step s = .next { t with pc := s.pc + 2 })) ∧
    (∀ b : Byte, 8 ≤ b.toNat → ∃ t, exec (.push b) s = .next t ∧ RegisterFaulted b s t)

/-- POP r loads `x[r]` from the byte at `x[7]` and increments `x[7]`; for `r = 7` the loaded value plus one is left
(43_stack.md R111; the `r = 7` order is the spec's choice D14, log 7). No byte of memory changes. -/
def Obligations.PopLoadsFromTheStackPointer : Prop :=
  ∀ s : State,
    (∀ r : RegIx, ∃ t, exec (.pop (regByte r)) s = .next t ∧
      (r ≠ 7 → t.reg r = s.memRead s.sp ∧ t.sp = s.sp + 1) ∧
      (r = 7 → t.sp = s.memRead s.sp + 1) ∧
      RegsExcept [r, 7] s t ∧ MemSame s t ∧ StatusSame s t ∧ t.out = s.out ∧ t.pc = s.pc ∧
      (s.run = .running → (fetch s).cmd = 0x46 → (fetch s).opA = regByte r →
        step s = .next { t with pc := s.pc + 2 })) ∧
    (∀ b : Byte, 8 ≤ b.toNat → ∃ t, exec (.pop b) s = .next t ∧ RegisterFaulted b s t)

/-- CALL r decrements `x[7]`, stores the return address `pc + 2` at the new stack pointer and jumps to `x[r]`, or for
`r = 7` to the decremented pointer (44_control.md R120; the `r = 7` order is the spec's choice D14, log 7). Every other
byte and register is as it was, and the loop does not advance `pc`. -/
def Obligations.CallPushesTheReturnAddressAndJumps : Prop :=
  ∀ s : State,
    (∀ r : RegIx, Memory.wf s.mem → ∃ t, exec (.call (regByte r)) s = .next t ∧
      t.pc = (if r = 7 then s.sp - 1 else s.reg r) ∧
      t.sp = s.sp - 1 ∧
      t.memRead (s.sp - 1) = s.pc + 2 ∧ MemExcept (s.sp - 1) s t ∧
      RegsExcept [7] s t ∧ StatusSame s t ∧ t.out = s.out ∧
      (s.run = .running → (fetch s).cmd = 0x50 → (fetch s).opA = regByte r → step s = .next t)) ∧
    (∀ b : Byte, 8 ≤ b.toNat → ∃ t, exec (.call b) s = .next t ∧ RegisterFaulted b s t)

/-- RET jumps to the byte at `x[7]` and increments `x[7]`; memory and the other registers are as they were, and the loop
does not advance `pc` (44_control.md R121). -/
def Obligations.RetJumpsToTheByteOnTheStack : Prop :=
  ∀ s : State, ∃ t, exec .ret s = .next t ∧
    t.pc = s.memRead s.sp ∧ t.sp = s.sp + 1 ∧
    RegsExcept [7] s t ∧ MemSame s t ∧ StatusSame s t ∧ t.out = s.out ∧
    (s.run = .running → (fetch s).cmd = 0x11 → step s = .next t)

/-! ### pairs of instructions -/

/-- PUSH r then POP r restores `x[r]` and `x[7]` (43_stack.md R113, its condition and its `r = 7` case marked derived
there). First clause: one right after the other, if the pushed byte does not hit the POP's own bytes; the one lasting
change is the byte below the stack pointer. Second clause: a POP r reached later, in any state that left `x[7]` and that
byte as PUSH r left them. -/
def Obligations.PushThenPopRestores : Prop :=
  ∀ (s : State) (r : RegIx), Memory.wf s.mem → s.run = .running →
    s.memRead s.pc = 0x45 → s.memRead (s.pc + 1) = regByte r →
    (s.memRead (s.pc + 2) = 0x46 → s.memRead (s.pc + 3) = regByte r →
      s.sp - 1 ≠ s.pc + 2 → s.sp - 1 ≠ s.pc + 3 →
      ∃ t u, step s = .next t ∧ step t = .next u ∧ u.pc = s.pc + 4 ∧ RegsExcept [] s u ∧
        MemExcept (s.sp - 1) s u ∧ u.memRead (s.sp - 1) = (if r = 7 then s.sp - 1 else s.reg r) ∧
        StatusSame s u ∧ u.out = s.out) ∧
    (∃ t, step s = .next t ∧ ∀ u : State, u.run = .running → u.memRead u.pc = 0x46 →
      u.memRead (u.pc + 1) = regByte r → u.sp = t.sp → u.memRead t.sp = t.memRead t.sp →
      ∃ v, step u = .next v ∧ v.reg r = s.reg r ∧ v.sp = s.sp)

/-- CALL and RET pair (44_control.md R122): a CALL at `p` with `x[7] = s` leaves `x[7] = s - 1` and the byte `p + 2`
there; and a RET executed with that pointer and that byte, in whatever state the subroutine left, resumes at `p + 2`
with `x[7] = s`. -/
def Obligations.CallThenRetResumesAfterTheCall : Prop :=
  ∀ (s : State) (r : RegIx), Memory.wf s.mem → s.run = .running →
    (fetch s).cmd = 0x50 → (fetch s).opA = regByte r →
    (∃ t, step s = .next t ∧ t.sp = s.sp - 1 ∧ t.memRead (s.sp - 1) = s.pc + 2) ∧
    (∀ u : State, u.run = .running → (fetch u).cmd = 0x11 → u.sp = s.sp - 1 →
      u.memRead (s.sp - 1) = s.pc + 2 → ∃ v, step u = .next v ∧ v.pc = s.pc + 2 ∧ v.sp = s.sp)

/-- A byte PUSH stores is what the very next fetch returns, as opcode or as either operand byte, wherever it lies among
the next three bytes (20_memory.md R43, marked derived there). -/
def Obligations.PushedByteIsSeenByTheNextFetch : Prop :=
  ∀ (s : State) (r : RegIx), Memory.wf s.mem → s.run = .running →
    (fetch s).cmd = 0x45 → (fetch s).opA = regByte r → r ≠ 7 →
    ∃ t, step s = .next t ∧
      (s.sp - 1 = s.pc + 2 → (fetch t).cmd = s.reg r) ∧
      (s.sp - 1 = s.pc + 3 → (fetch t).opA = s.reg r) ∧
      (s.sp - 1 = s.pc + 4 → (fetch t).opB = s.reg r)

/-! ### faults -/

/-- An opcode byte that is none of the nine, whatever its fields and the bytes after it, makes the machine FAULTED with
cause InvalidInstruction (code 1) and the byte in `info`, `pc` at that byte and nothing else changed (60_exceptions.md
R131; the shape of fault entry is R139, the spec's choice D8, log 2). -/
def Obligations.UnknownOpcodeRaisesInvalidInstruction : Prop :=
  Cause.invalidInstruction.code = 1 ∧
  ∀ s : State, s.run = .running → s.memRead s.pc ∉ [0x01, 0x47, 0x82, 0xA0, 0xA2, 0x45, 0x46, 0x50, 0x11] →
    step s = .next { s with run := .faulted, cause := .invalidInstruction, info := s.memRead s.pc }

/-- A register operand of 8 or more raises RegisterFault (code 3) with the byte in `info` and nothing else changed: `opA`
first, and `opB` for the two formats that read it as a register (60_exceptions.md R133, R138). The fault and the order
are the spec's choices D5 and D13 (log 6, log 9). -/
def Obligations.BadRegisterOperandRaisesRegisterFault : Prop :=
  Cause.registerFault.code = 3 ∧
  ∀ s : State, s.run = .running →
    ((fetch s).cmd ∈ [0x47, 0x82, 0xA0, 0xA2, 0x45, 0x46, 0x50] → 8 ≤ (fetch s).opA.toNat →
      ∃ t, step s = .next t ∧ RegisterFaulted (fetch s).opA s t) ∧
    ((fetch s).cmd ∈ [0xA0, 0xA2] → (fetch s).opA.toNat < 8 → 8 ≤ (fetch s).opB.toNat →
      ∃ t, step s = .next t ∧ RegisterFaulted (fetch s).opB s t)

/-- An instruction faults exactly when one of its register operands names no register: HLT and RET never do, nor does
the immediate of LDI (60_exceptions.md R133; the fault is the spec's choice D5, log 6). -/
def Obligations.HandlerFaultsExactlyOnBadRegisterOperand : Prop :=
  ∀ (i : Instr) (s t : State), s.run = .running → exec i s = .next t → (t.run = .faulted ↔ i.wf = false)

/-- Faults are precise: the step that makes a running machine FAULTED writes `run`, `cause` and `info` and nothing else
(60_exceptions.md R139, the spec's choice D8, log 2). -/
def Obligations.FaultEntryChangesOnlyTheStatus : Prop :=
  ∀ s t : State, s.run = .running → step s = .next t → t.run = .faulted →
    t = { s with run := .faulted, cause := t.cause, info := t.info }

/-- UnsupportedALUOperation (code 2) is a value of `cause` that no step writes; an opcode byte with bit 5 set that is not
ADD or MUL raises InvalidInstruction (60_exceptions.md R132). -/
def Obligations.UnsupportedAluOperationIsNeverRaised : Prop :=
  Cause.unsupportedALUOperation.code = 2 ∧
  (∀ s t : State, step s = .next t → t.cause = .unsupportedALUOperation → s.cause = .unsupportedALUOperation) ∧
  (∀ s : State, s.run = .running → (fetch s).cmd.getLsbD 5 = true → (fetch s).cmd ≠ 0xA0 → (fetch s).cmd ≠ 0xA2 →
    ∃ t, step s = .next t ∧ t.run = .faulted ∧ t.cause = .invalidInstruction)

/-! ### rules of the whole machine -/

/-- Only PUSH and CALL write memory, and only the byte below the stack pointer (20_memory.md R37, R43). -/
def Obligations.OnlyPushAndCallWriteMemory : Prop :=
  ∀ s t : State, Memory.wf s.mem → step s = .next t → ∀ a : Addr, t.memRead a ≠ s.memRead a →
    s.run = .running ∧ ((fetch s).cmd = 0x45 ∨ (fetch s).cmd = 0x50) ∧ a = s.sp - 1

/-- Which registers an instruction may change: the table of 10_state.md R12, marked derived there. -/
def Obligations.InstructionsWriteOnlyTheirRegisters : Prop :=
  ∀ (i : Instr) (s t : State) (r : RegIx), exec i s = .next t → t.reg r ≠ s.reg r →
    match i with
    | .hlt => False
    | .prn _ => False
    | .ldi b _ => b = regByte r
    | .add b _ => b = regByte r
    | .mul b _ => b = regByte r
    | .push _ => r = 7
    | .pop b => b = regByte r ∨ r = 7
    | .call _ => r = 7
    | .ret => r = 7

/-- The output stream only grows, by one value and at a PRN only, and nothing depends on what was emitted before: the
same step from the same state with another stream differs in that alone (10_state.md R21). -/
def Obligations.OutputGrowsAtPrnAndInfluencesNothing : Prop :=
  ∀ s t : State, step s = .next t →
    ∃ e : List Byte, t.out = s.out ++ e ∧
      (e = [] ∨ ((fetch s).cmd = 0x47 ∧ ∃ r, (fetch s).opA = regByte r ∧ e = [s.reg r])) ∧
      ∀ o : List Byte, step { s with out := o } = .next { t with out := o ++ e }

/-- A run ends by HLT or by a fault and in no other way (10_state.md R17; the states are the spec's choices D6 and D8,
log 8, log 2). -/
def Obligations.RunEndsOnlyByHltOrFault : Prop :=
  ∀ s t : State, s.run = .running → step s = .next t → t.run ≠ .running →
    ((fetch s).cmd = 0x01 ∧ t.run = .halted) ∨
    (t.run = .faulted ∧ (t.cause = .invalidInstruction ∨ t.cause = .registerFault))

/-! ### memory -/

/-- A write replaces the content of the addressed cell and changes nothing else; a read changes nothing and returns the
current content (20_memory.md R32). -/
def Obligations.ReadAfterWrite : Prop :=
  ∀ (s : State) (a : Addr) (v : Byte), Memory.wf s.mem →
    ∃ m : Memory, s.memWrite a v = { s with mem := m } ∧
      (s.memWrite a v).memRead a = v ∧ MemExcept a s (s.memWrite a v)

/-- Memories in canonical form that read alike are equal data. The form is the model's choice, log 10. -/
def Obligations.CanonicalMemoriesThatReadAlikeAreEqual : Prop :=
  ∀ m m' : Memory, Memory.wf m → Memory.wf m' → (∀ a : Addr, Memory.get m a.toNat = Memory.get m' a.toNat) → m = m'

/-! ### reset, boot, the host -/

/-- Reset, from whatever state, gives the reset values (70_reset_and_hazards.md R161; those of cause, info
and out are the spec's choices D9 and D11, log 17, log 11). -/
def Obligations.ResetValues : Prop :=
  ∀ s : State,
    (∀ r : RegIx, r ≠ 7 → (hostReset s).reg r = 0) ∧ (hostReset s).reg 7 = 0xF4 ∧
    (hostReset s).pc = 0 ∧ (hostReset s).run = .running ∧ (hostReset s).cause = .none ∧ (hostReset s).info = 0 ∧
    (∀ a, (hostReset s).memRead a = 0) ∧ (hostReset s).out = []

/-- Boot puts byte `k` of the image at address `k` and leaves every other cell 0 and everything else as reset left it
(70_reset_and_hazards.md R162); an image of more than 256 bytes is refused (R165, the spec's choice D17, log 14). -/
def Obligations.BootLoadsTheImage : Prop :=
  ∀ image : List Byte,
    (image.length ≤ 256 → ∃ s, boot image = some s ∧
      (∀ k (h : k < image.length), s.memRead (BitVec.ofNat 8 k) = image[k]) ∧
      (∀ a : Addr, image.length ≤ a.toNat → s.memRead a = 0) ∧
      s = { State.reset with mem := s.mem }) ∧
    (256 < image.length → boot image = none)

/-- The host reads HALTED as exit status 0 and FAULTED, whatever the cause, as 2 (60_exceptions.md R148, the spec's
choice D10, log 12). -/
def Obligations.ExitStatusOfEachEndState : Prop :=
  ∀ s : State,
    (exitStatus s = none ↔ s.run = .running) ∧ (exitStatus s = some 0 ↔ s.run = .halted) ∧
    (exitStatus s = some 2 ↔ s.run = .faulted)

/-- Lines with nothing but a comment or white space, and comments at the end of a line, do not change the image
(30_encoding.md R67, 95_test_vectors.md S6). -/
def Obligations.CommentsAndBlankLinesDoNotChangeTheImage : Prop :=
  (∀ (before after : List (List Char)) (line : List Char), trim (stripComment line) = [] →
    loadLines (before ++ line :: after) = loadLines (before ++ after)) ∧
  (∀ (before after : List (List Char)) (line comment : List Char),
    loadLines (before ++ (line ++ '#' :: comment) :: after) = loadLines (before ++ stripComment line :: after))

/-! ### the invariant -/

/-- Reset meets the invariant. -/
def Obligations.ResetMeetsTheInvariant : Prop := Inv State.reset

/-- Every step keeps the invariant, from every state that meets it: memory stays in canonical form, and `run`, `cause`
and `info` stay true of the bytes at `pc` (60_exceptions.md R131 to R139, 41_system_io.md R90). -/
def Obligations.EveryStepKeepsTheInvariant : Prop :=
  ∀ s t : State, Inv s → step s = .next t → Inv t

/-- Every run of every image, of any length, has a state to show and that state is sound: if FAULTED, it stands at an
unknown opcode or at a register operand of 8 or more, recorded in `info`; if HALTED, at a HLT (40_cycle.md R78,
70_reset_and_hazards.md R162, R172). Steps after the end answer the same state, log 1. -/
def Obligations.EveryRunOfEveryImageIsSound : Prop :=
  ∀ (image : List Byte) (n : Nat), image.length ≤ 256 →
    ∃ s t, boot image = some s ∧ Sys2Proof.core.run n s = .next t ∧ Inv t
end

