-- ==== Sys2Proof/Laws/Decode.lean ====
section
/-! SUPPORT. The decoder inverted once: what its two answers say about the bytes. -/

namespace Sys2Proof

/-- A decoded instruction has the opcode byte it was decoded from, and its operand bytes are the first of the two
that were offered. -/
theorem decodeWith_ok {o : Config.Opcodes} {cmd a b : Byte} {i : Instr} (h : decodeWith o cmd a b = .ok i) :
    i.opcodeWith o = cmd ∧ i.operands <+: [a, b] := by
  unfold decodeWith at h
  repeat' split at h
  all_goals first
    | (cases h; exact ⟨by simp_all [Instr.opcodeWith], by simp [Instr.operands]⟩)
    | cases h

/-- A rejected opcode byte is rejected by its own name, and is none of the nine. -/
theorem decodeWith_error {o : Config.Opcodes} {cmd a b : Byte} {e : DecodeError} (h : decodeWith o cmd a b = .error e) :
    e = .invalidInstruction cmd ∧ cmd ∉ o.values := by
  unfold decodeWith at h
  repeat' split at h
  all_goals first
    | (cases h; exact ⟨rfl, by simp_all [Config.Opcodes.values]⟩)
    | cases h

theorem Instr.opcodeWith_mem (o : Config.Opcodes) (i : Instr) : i.opcodeWith o ∈ o.values := by
  cases i <;> simp [Instr.opcodeWith, Config.Opcodes.values]

end Sys2Proof
end

