-- ==== Sys2Proof/Laws/Word.lean ====
section
/-! SUPPORT. Arithmetic of the word types. The widths are parameters with simp lemmas, so `simp` computes with them;
`omega` and `bv_omega` do not unfold them, and these lemmas state what they need. One lemma serves all four types,
since the widths are equal (Word.lean). -/

namespace Sys2Proof

/-- Every value of the machine is below 256 (00_scope.md R6). -/
theorem word_toNat_lt (a : Addr) : a.toNat < 256 := a.isLt

/-- The memory has one cell for every address (20_memory.md R30). -/
theorem memSize_eq : Config.memSize = 2 ^ Config.alen := rfl

/-- Two offsets from one address are one. -/
theorem word_add_add (a : Addr) (m n : Nat) :
    a + BitVec.ofNat Config.alen m + BitVec.ofNat Config.alen n = a + BitVec.ofNat Config.alen (m + n) := by
  rw [BitVec.add_assoc, BitVec.ofNat_add]

/-- The post-increment undoes the pre-decrement (43_stack.md R112), at the wrap too. -/
theorem word_sub_add_cancel (a k : Addr) : a - k + k = a := BitVec.sub_add_cancel a k

/-- Addition of addresses in numbers, modulo 256 (00_scope.md R6). -/
theorem word_toNat_add (a b : Addr) : (a + b).toNat = (a.toNat + b.toNat) % 256 := BitVec.toNat_add a b

/-- Subtraction of addresses in numbers, modulo 256 (00_scope.md R6). -/
theorem word_toNat_sub (a b : Addr) : (a - b).toNat = (256 - b.toNat + a.toNat) % 256 := BitVec.toNat_sub a b

end Sys2Proof
end

