-- ==== Sys2Proof/Laws/State.lean ====
section
/-! SUPPORT. One lemma per field per update of the state, true by rfl; no later proof unfolds a record update. -/

namespace Sys2Proof.Machine

/-! ### memWrite -/

@[simp] theorem State.memWrite_regs (s : State) (a : Addr) (v : Byte) : (s.memWrite a v).regs = s.regs := rfl
@[simp] theorem State.memWrite_pc (s : State) (a : Addr) (v : Byte) : (s.memWrite a v).pc = s.pc := rfl
@[simp] theorem State.memWrite_run (s : State) (a : Addr) (v : Byte) : (s.memWrite a v).run = s.run := rfl
@[simp] theorem State.memWrite_cause (s : State) (a : Addr) (v : Byte) : (s.memWrite a v).cause = s.cause := rfl
@[simp] theorem State.memWrite_info (s : State) (a : Addr) (v : Byte) : (s.memWrite a v).info = s.info := rfl
@[simp] theorem State.memWrite_mem (s : State) (a : Addr) (v : Byte) : (s.memWrite a v).mem = Memory.put s.mem a.toNat v := rfl
@[simp] theorem State.memWrite_out (s : State) (a : Addr) (v : Byte) : (s.memWrite a v).out = s.out := rfl

/-! ### setReg -/

@[simp] theorem State.setReg_regs (s : State) (r : RegIx) (v : RegWord) : (s.setReg r v).regs = s.regs.set r.val v r.isLt := rfl
@[simp] theorem State.setReg_pc (s : State) (r : RegIx) (v : RegWord) : (s.setReg r v).pc = s.pc := rfl
@[simp] theorem State.setReg_run (s : State) (r : RegIx) (v : RegWord) : (s.setReg r v).run = s.run := rfl
@[simp] theorem State.setReg_cause (s : State) (r : RegIx) (v : RegWord) : (s.setReg r v).cause = s.cause := rfl
@[simp] theorem State.setReg_info (s : State) (r : RegIx) (v : RegWord) : (s.setReg r v).info = s.info := rfl
@[simp] theorem State.setReg_mem (s : State) (r : RegIx) (v : RegWord) : (s.setReg r v).mem = s.mem := rfl
@[simp] theorem State.setReg_out (s : State) (r : RegIx) (v : RegWord) : (s.setReg r v).out = s.out := rfl

/-! ### setPc -/

@[simp] theorem State.setPc_regs (s : State) (t : PcWord) : (s.setPc t).regs = s.regs := rfl
@[simp] theorem State.setPc_pc (s : State) (t : PcWord) : (s.setPc t).pc = t := rfl
@[simp] theorem State.setPc_run (s : State) (t : PcWord) : (s.setPc t).run = s.run := rfl
@[simp] theorem State.setPc_cause (s : State) (t : PcWord) : (s.setPc t).cause = s.cause := rfl
@[simp] theorem State.setPc_info (s : State) (t : PcWord) : (s.setPc t).info = s.info := rfl
@[simp] theorem State.setPc_mem (s : State) (t : PcWord) : (s.setPc t).mem = s.mem := rfl
@[simp] theorem State.setPc_out (s : State) (t : PcWord) : (s.setPc t).out = s.out := rfl

/-! ### setRun -/

@[simp] theorem State.setRun_regs (s : State) (r : RunState) : (s.setRun r).regs = s.regs := rfl
@[simp] theorem State.setRun_pc (s : State) (r : RunState) : (s.setRun r).pc = s.pc := rfl
@[simp] theorem State.setRun_run (s : State) (r : RunState) : (s.setRun r).run = r := rfl
@[simp] theorem State.setRun_cause (s : State) (r : RunState) : (s.setRun r).cause = s.cause := rfl
@[simp] theorem State.setRun_info (s : State) (r : RunState) : (s.setRun r).info = s.info := rfl
@[simp] theorem State.setRun_mem (s : State) (r : RunState) : (s.setRun r).mem = s.mem := rfl
@[simp] theorem State.setRun_out (s : State) (r : RunState) : (s.setRun r).out = s.out := rfl

/-! ### emit -/

@[simp] theorem State.emit_regs (s : State) (v : Byte) : (s.emit v).regs = s.regs := rfl
@[simp] theorem State.emit_pc (s : State) (v : Byte) : (s.emit v).pc = s.pc := rfl
@[simp] theorem State.emit_run (s : State) (v : Byte) : (s.emit v).run = s.run := rfl
@[simp] theorem State.emit_cause (s : State) (v : Byte) : (s.emit v).cause = s.cause := rfl
@[simp] theorem State.emit_info (s : State) (v : Byte) : (s.emit v).info = s.info := rfl
@[simp] theorem State.emit_mem (s : State) (v : Byte) : (s.emit v).mem = s.mem := rfl
@[simp] theorem State.emit_out (s : State) (v : Byte) : (s.emit v).out = s.out ++ [v] := rfl

/-! ### enterFault -/

@[simp] theorem State.enterFault_regs (s : State) (f : FaultEntry) : (s.enterFault f).regs = s.regs := rfl
@[simp] theorem State.enterFault_pc (s : State) (f : FaultEntry) : (s.enterFault f).pc = s.pc := rfl
@[simp] theorem State.enterFault_run (s : State) (f : FaultEntry) : (s.enterFault f).run = .faulted := rfl
@[simp] theorem State.enterFault_cause (s : State) (f : FaultEntry) : (s.enterFault f).cause = f.cause := rfl
@[simp] theorem State.enterFault_info (s : State) (f : FaultEntry) : (s.enterFault f).info = f.info := rfl
@[simp] theorem State.enterFault_mem (s : State) (f : FaultEntry) : (s.enterFault f).mem = s.mem := rfl
@[simp] theorem State.enterFault_out (s : State) (f : FaultEntry) : (s.enterFault f).out = s.out := rfl

/-! ### decSp -/

@[simp] theorem State.decSp_pc (s : State) : (s.decSp).pc = s.pc := rfl
@[simp] theorem State.decSp_run (s : State) : (s.decSp).run = s.run := rfl
@[simp] theorem State.decSp_cause (s : State) : (s.decSp).cause = s.cause := rfl
@[simp] theorem State.decSp_info (s : State) : (s.decSp).info = s.info := rfl
@[simp] theorem State.decSp_mem (s : State) : (s.decSp).mem = s.mem := rfl
@[simp] theorem State.decSp_out (s : State) : (s.decSp).out = s.out := rfl

/-! ### incSp -/

@[simp] theorem State.incSp_pc (s : State) : (s.incSp).pc = s.pc := rfl
@[simp] theorem State.incSp_run (s : State) : (s.incSp).run = s.run := rfl
@[simp] theorem State.incSp_cause (s : State) : (s.incSp).cause = s.cause := rfl
@[simp] theorem State.incSp_info (s : State) : (s.incSp).info = s.info := rfl
@[simp] theorem State.incSp_mem (s : State) : (s.incSp).mem = s.mem := rfl
@[simp] theorem State.incSp_out (s : State) : (s.incSp).out = s.out := rfl

/-! ### writeTop -/

@[simp] theorem State.writeTop_regs (s : State) (v : Byte) : (s.writeTop v).regs = s.regs := rfl
@[simp] theorem State.writeTop_pc (s : State) (v : Byte) : (s.writeTop v).pc = s.pc := rfl
@[simp] theorem State.writeTop_run (s : State) (v : Byte) : (s.writeTop v).run = s.run := rfl
@[simp] theorem State.writeTop_cause (s : State) (v : Byte) : (s.writeTop v).cause = s.cause := rfl
@[simp] theorem State.writeTop_info (s : State) (v : Byte) : (s.writeTop v).info = s.info := rfl
@[simp] theorem State.writeTop_mem (s : State) (v : Byte) : (s.writeTop v).mem = Memory.put s.mem s.sp.toNat v := rfl
@[simp] theorem State.writeTop_out (s : State) (v : Byte) : (s.writeTop v).out = s.out := rfl

/-! ### accessors through updates -/

@[simp] theorem addrAdd_eq (a k : Addr) : addrAdd a k = a + k := rfl
@[simp] theorem addrSub_eq (a k : Addr) : addrSub a k = a - k := rfl

theorem State.reg_eq (s : State) (r : RegIx) : s.reg r = s.regs[r] := rfl

/-- Reading a register after a register write. -/
theorem State.reg_setReg (s : State) (r q : RegIx) (v : Byte) :
    (s.setReg r v).reg q = if q = r then v else s.reg q := by
  simp only [State.reg_eq, State.setReg_regs, Fin.getElem_fin, Vector.getElem_set, Fin.ext_iff, eq_comm]

@[simp] theorem State.reg_setReg_self (s : State) (r : RegIx) (v : RegWord) : (s.setReg r v).reg r = v := by
  simp [State.reg_setReg]

/-- A write to a register leaves every other one alone. -/
theorem State.reg_setReg_of_ne (s : State) {r q : RegIx} (h : q ≠ r) (v : Byte) : (s.setReg r v).reg q = s.reg q := by
  simp [State.reg_setReg, h]

@[simp] theorem State.memWrite_reg (s : State) (a : Addr) (v : Byte) (q : RegIx) : (s.memWrite a v).reg q = s.reg q := rfl
@[simp] theorem State.memWrite_sp (s : State) (a : Addr) (v : Byte) : (s.memWrite a v).sp = s.sp := rfl
@[simp] theorem State.setReg_memRead (s : State) (r : RegIx) (v : RegWord) (q : Addr) : (s.setReg r v).memRead q = s.memRead q := rfl
@[simp] theorem State.setPc_reg (s : State) (t : PcWord) (q : RegIx) : (s.setPc t).reg q = s.reg q := rfl
@[simp] theorem State.setPc_sp (s : State) (t : PcWord) : (s.setPc t).sp = s.sp := rfl
@[simp] theorem State.setPc_memRead (s : State) (t : PcWord) (q : Addr) : (s.setPc t).memRead q = s.memRead q := rfl
@[simp] theorem State.setRun_reg (s : State) (r : RunState) (q : RegIx) : (s.setRun r).reg q = s.reg q := rfl
@[simp] theorem State.setRun_sp (s : State) (r : RunState) : (s.setRun r).sp = s.sp := rfl
@[simp] theorem State.setRun_memRead (s : State) (r : RunState) (q : Addr) : (s.setRun r).memRead q = s.memRead q := rfl
@[simp] theorem State.emit_reg (s : State) (v : Byte) (q : RegIx) : (s.emit v).reg q = s.reg q := rfl
@[simp] theorem State.emit_sp (s : State) (v : Byte) : (s.emit v).sp = s.sp := rfl
@[simp] theorem State.emit_memRead (s : State) (v : Byte) (q : Addr) : (s.emit v).memRead q = s.memRead q := rfl
@[simp] theorem State.enterFault_reg (s : State) (f : FaultEntry) (q : RegIx) : (s.enterFault f).reg q = s.reg q := rfl
@[simp] theorem State.enterFault_sp (s : State) (f : FaultEntry) : (s.enterFault f).sp = s.sp := rfl
@[simp] theorem State.enterFault_memRead (s : State) (f : FaultEntry) (q : Addr) : (s.enterFault f).memRead q = s.memRead q := rfl
@[simp] theorem State.decSp_memRead (s : State) (q : Addr) : (s.decSp).memRead q = s.memRead q := rfl
@[simp] theorem State.incSp_memRead (s : State) (q : Addr) : (s.incSp).memRead q = s.memRead q := rfl
@[simp] theorem State.writeTop_reg (s : State) (v : Byte) (q : RegIx) : (s.writeTop v).reg q = s.reg q := rfl
@[simp] theorem State.writeTop_sp (s : State) (v : Byte) : (s.writeTop v).sp = s.sp := rfl

@[simp] theorem State.decSp_sp (s : State) : s.decSp.sp = s.sp - 1 := State.reg_setReg_self s _ _
@[simp] theorem State.incSp_sp (s : State) : s.incSp.sp = s.sp + 1 := State.reg_setReg_self s _ _

theorem State.decSp_reg (s : State) (q : RegIx) : s.decSp.reg q = if q = Config.sp then s.sp - 1 else s.reg q :=
  State.reg_setReg s _ q _

theorem State.incSp_reg (s : State) (q : RegIx) : s.incSp.reg q = if q = Config.sp then s.sp + 1 else s.reg q :=
  State.reg_setReg s _ q _

end Sys2Proof.Machine
end

