-- ==== Sys2Proof/Laws/Memory.lean ====
section
/-! SUPPORT. The laws of memory: every operation keeps the canonical form, and a read after a write. -/

namespace Sys2Proof.Machine

theorem Memory.get_nil (a : Nat) : Memory.get [] a = Config.cellReset := rfl

theorem Memory.get_cons (b : Nat) (w : Byte) (m : Memory) (a : Nat) :
    Memory.get ((b, w) :: m) a = if a = b then w else Memory.get m a := rfl

/-- An address below every listed one reads as an unlisted address. -/
theorem Memory.get_of_lt {m : Memory} {a : Nat} (h : ∀ c ∈ m, a < c.1) : Memory.get m a = Config.cellReset := by
  induction m with
  | nil => rfl
  | cons c m ih =>
    have hc := h c (by simp)
    rw [show c = (c.1, c.2) from rfl, Memory.get_cons, if_neg (by omega)]
    exact ih fun d hd => h d (by simp [hd])

theorem Memory.wf_nil : Memory.wf [] := by simp [Memory.wf]

/-- The canonical form, one cell at a time. -/
theorem Memory.wf_cons {b : Nat} {w : Byte} {m : Memory} :
    Memory.wf ((b, w) :: m) ↔ (∀ c ∈ m, b < c.1) ∧ b < Config.memSize ∧ w ≠ Config.cellReset ∧ Memory.wf m := by
  simp only [Memory.wf, List.pairwise_cons, List.mem_cons, forall_eq_or_imp]
  tauto

theorem Memory.wf_consCell {a : Nat} {v : Byte} {m : Memory} (hm : Memory.wf m) (ha : a < Config.memSize)
    (h : ∀ c ∈ m, a < c.1) : Memory.wf (Memory.consCell a v m) := by
  unfold Memory.consCell
  split
  · exact hm
  · next hv => exact Memory.wf_cons.2 ⟨h, ha, hv, hm⟩

theorem Memory.mem_consCell {a : Nat} {v : Byte} {m : Memory} {c : Host.Cell} (h : c ∈ Memory.consCell a v m) :
    c.1 = a ∨ c ∈ m := by
  unfold Memory.consCell at h
  split at h
  · exact .inr h
  · rcases List.mem_cons.1 h with rfl | h
    · exact .inl rfl
    · exact .inr h

/-- A write lists no address but the one written and those listed before. -/
theorem Memory.mem_put {m : Memory} {a : Nat} {v : Byte} {c : Host.Cell} (h : c ∈ Memory.put m a v) :
    c.1 = a ∨ c ∈ m := by
  induction m with
  | nil => exact Memory.mem_consCell h
  | cons d m ih =>
    obtain ⟨b, w⟩ := d
    unfold Memory.put at h
    split at h
    · exact Memory.mem_consCell h
    · split at h
      · rcases Memory.mem_consCell h with h | h
        · exact .inl h
        · exact .inr (List.mem_cons_of_mem _ h)
      · rcases List.mem_cons.1 h with rfl | h
        · exact .inr (by simp)
        · exact (ih h).imp id (List.mem_cons_of_mem _)

/-- A write keeps the canonical form. -/
theorem Memory.wf_put {m : Memory} {a : Nat} (v : Byte) (hm : Memory.wf m) (ha : a < Config.memSize) :
    Memory.wf (Memory.put m a v) := by
  induction m with
  | nil => exact Memory.wf_consCell hm ha (by simp)
  | cons d m ih =>
    obtain ⟨b, w⟩ := d
    obtain ⟨hlt, hb, hw, hm'⟩ := Memory.wf_cons.1 hm
    unfold Memory.put
    split
    · next hab =>
      refine Memory.wf_consCell hm ha fun c hc => ?_
      rcases List.mem_cons.1 hc with rfl | hc
      · exact hab
      · exact hab.trans (hlt c hc)
    · split
      · next hab => exact Memory.wf_consCell hm' ha (hab ▸ hlt)
      · refine Memory.wf_cons.2 ⟨fun c hc => ?_, hb, hw, ih hm'⟩
        rcases Memory.mem_put hc with h | h
        · omega
        · exact hlt c h

theorem Memory.get_consCell {m : Memory} {a : Nat} (v : Byte) (h : ∀ c ∈ m, a < c.1) (q : Nat) :
    Memory.get (Memory.consCell a v m) q = if q = a then v else Memory.get m q := by
  unfold Memory.consCell
  split
  · next hv =>
    split
    · next hq => rw [hq, hv]; exact Memory.get_of_lt h
    · rfl
  · rfl

/-- A read after a write, in canonical memory. -/
theorem Memory.get_put {m : Memory} (hm : Memory.wf m) (a : Nat) (v : Byte) (q : Nat) :
    Memory.get (Memory.put m a v) q = if q = a then v else Memory.get m q := by
  induction m with
  | nil => exact Memory.get_consCell v (by simp) q
  | cons d m ih =>
    obtain ⟨b, w⟩ := d
    obtain ⟨hlt, _, _, hm'⟩ := Memory.wf_cons.1 hm
    unfold Memory.put
    split
    · next hab =>
      refine Memory.get_consCell v (fun c hc => ?_) q
      rcases List.mem_cons.1 hc with rfl | hc
      · exact hab
      · exact hab.trans (hlt c hc)
    · split
      · next hab =>
        subst hab
        rw [Memory.get_consCell v hlt q, Memory.get_cons]
        split <;> rfl
      · simp only [Memory.get_cons, ih hm']
        split
        · next hq => rw [if_neg (by omega)]
        · rfl

/-- MemWrite keeps the canonical form: every address fits. -/
theorem State.wf_memWrite {s : State} (h : Memory.wf s.mem) (a : Addr) (v : Byte) : Memory.wf (s.memWrite a v).mem :=
  Memory.wf_put v h a.isLt

theorem State.wf_writeTop {s : State} (h : Memory.wf s.mem) (v : Byte) : Memory.wf (s.writeTop v).mem :=
  State.wf_memWrite h s.sp v

/-- Loading keeps the canonical form. -/
theorem State.wf_placeBytes {s : State} (h : Memory.wf s.mem) (a : Addr) (bs : List Byte) :
    Memory.wf (s.placeBytes a bs).mem := by
  induction bs generalizing s a with
  | nil => exact h
  | cons b bs ih => exact ih (State.wf_memWrite h a b) (addrAdd a 1)

/-- Reset memory is in canonical form. -/
theorem State.wf_reset : Memory.wf State.reset.mem := Memory.wf_nil

/-- MemRead after MemWrite (20_memory.md R32). -/
theorem State.memRead_memWrite {s : State} (h : Memory.wf s.mem) (a : Addr) (v : Byte) (q : Addr) :
    (s.memWrite a v).memRead q = if q = a then v else s.memRead q := by
  simp only [State.memRead, State.memWrite_mem, Memory.get_put h, BitVec.toNat_inj]

end Sys2Proof.Machine
end

