-- ==== Sys2Proof/Laws/Operands.lean ====
section
/-! SUPPORT. One law per shared operation of the handlers: what a register operand does, and what fault entry does. -/

namespace Sys2Proof.Machine

open Safety (regByte)

/-- A byte that names a register is that register's byte. -/
theorem regByte_of_lt {b : Byte} (h : b.toNat < Config.nregs) : regByte ⟨b.toNat, h⟩ = b := by
  simp [regByte]

theorem namesReg_regByte (r : RegIx) : namesReg (regByte r) = true := by
  revert r; decide

theorem namesReg_iff {b : Byte} : namesReg b = true ↔ ∃ r : RegIx, b = regByte r := by
  constructor
  · intro h
    have h' : b.toNat < Config.nregs := by simpa [namesReg] using h
    exact ⟨⟨b.toNat, h'⟩, (regByte_of_lt h').symm⟩
  · rintro ⟨r, rfl⟩
    exact namesReg_regByte r

@[simp] theorem regIndex_regByte (r : RegIx) : regIndex (regByte r) = .ok r := by
  revert r; decide

theorem regIndex_bad {b : Byte} (h : namesReg b = false) : regIndex b = .error ⟨.registerFault, b⟩ := by
  have h' : ¬ b.toNat < Config.nregs := by simpa [namesReg] using h
  simp [regIndex, h']

/-- A handler whose operand names register `r` goes on with `r`. -/
@[simp] theorem withReg_regByte (r : RegIx) (s : State) (k : RegIx → Result) : withReg (regByte r) s k = k r := by
  simp [withReg]

/-- A handler whose operand names no register raises RegisterFault. -/
theorem withReg_bad {b : Byte} (h : namesReg b = false) (s : State) (k : RegIx → Result) :
    withReg b s k = .next (s.enterFault ⟨.registerFault, b⟩) := by
  simp [withReg, regIndex_bad h, raise]

/-- Everything a register operand can do. -/
theorem withReg_cases (b : Byte) (s : State) (k : RegIx → Result) :
    (∃ r, b = regByte r ∧ withReg b s k = k r) ∨
    (namesReg b = false ∧ withReg b s k = .next (s.enterFault ⟨.registerFault, b⟩)) := by
  cases h : namesReg b with
  | true =>
    obtain ⟨r, rfl⟩ := namesReg_iff.1 h
    exact .inl ⟨r, rfl, withReg_regByte r s k⟩
  | false => exact .inr ⟨rfl, withReg_bad h s k⟩

/-- Fault entry is a next state. -/
theorem raise_eq (f : FaultEntry) (s : State) : raise f s = .next (s.enterFault f) := rfl

end Sys2Proof.Machine
end

