-- ==== Sys2Proof/Laws/PerInstr.lean ====
section
/-! SUPPORT. Families of statements about an instruction as syntax, one lemma per constructor. -/

namespace Sys2Proof.Laws

/-- The encoded instruction has `1 + cmd[7:6]` bytes, `cmd` its opcode byte (30_encoding.md R50, R61 (b)). -/
def EncodingLength.Statement (i : Instr) : Prop := (encode i).length = Machine.lengthOf i.opcode

theorem EncodingLength.hlt : EncodingLength.Statement .hlt := by unfold EncodingLength.Statement; decide
theorem EncodingLength.prn (r : Byte) : EncodingLength.Statement (.prn r) := by
  show 1 + 1 = Machine.lengthOf opcodes.prn; decide
theorem EncodingLength.ldi (r imm : Byte) : EncodingLength.Statement (.ldi r imm) := by
  show 2 + 1 = Machine.lengthOf opcodes.ldi; decide
theorem EncodingLength.add (ra rb : Byte) : EncodingLength.Statement (.add ra rb) := by
  show 2 + 1 = Machine.lengthOf opcodes.add; decide
theorem EncodingLength.mul (ra rb : Byte) : EncodingLength.Statement (.mul ra rb) := by
  show 2 + 1 = Machine.lengthOf opcodes.mul; decide
theorem EncodingLength.push (r : Byte) : EncodingLength.Statement (.push r) := by
  show 1 + 1 = Machine.lengthOf opcodes.push; decide
theorem EncodingLength.pop (r : Byte) : EncodingLength.Statement (.pop r) := by
  show 1 + 1 = Machine.lengthOf opcodes.pop; decide
theorem EncodingLength.call (r : Byte) : EncodingLength.Statement (.call r) := by
  show 1 + 1 = Machine.lengthOf opcodes.call; decide
theorem EncodingLength.ret : EncodingLength.Statement .ret := by unfold EncodingLength.Statement; decide

end Sys2Proof.Laws
end

