-- ==== Sys2Proof/Laws/Step.lean ====
section
/-! SUPPORT. The step taken apart once: fetch, the pc update, and the two ways a running machine's step goes; and one
law per handler, which says what it answers when its operands name registers. -/

namespace Sys2Proof.Machine

open Safety (regByte)

/-! ### the loop -/

theorem step_of_not_running {s : State} (h : s.run ≠ .running) : step s = .next s := if_neg h

theorem step_of_running {s : State} (h : s.run = .running) : step s = dispatch (fetch s) s := if_pos h

/-- A running machine whose fetched bytes decode to `i` runs `i`, then updates pc. -/
theorem step_of_decode {s t : State} {i : Instr} (hr : s.run = .running)
    (hd : decode (fetch s).cmd (fetch s).opA (fetch s).opB = .ok i) (hx : exec i s = .next t) :
    step s = .next (pcUpdate (fetch s).cmd t) := by
  simp [step_of_running hr, dispatch, hd, hx]

/-- A running machine whose opcode byte is not one of the nine raises InvalidInstruction. -/
theorem step_of_invalid {s : State} {e : DecodeError} (hr : s.run = .running)
    (hd : decode (fetch s).cmd (fetch s).opA (fetch s).opB = .error e) :
    step s = .next (s.enterFault ⟨.invalidInstruction, (fetch s).cmd⟩) := by
  simp [step_of_running hr, dispatch, hd, raise]

@[simp] theorem pcUpdate_regs (c : Byte) (s : State) : (pcUpdate c s).regs = s.regs := by unfold pcUpdate; split <;> rfl
@[simp] theorem pcUpdate_run (c : Byte) (s : State) : (pcUpdate c s).run = s.run := by unfold pcUpdate; split <;> rfl
@[simp] theorem pcUpdate_cause (c : Byte) (s : State) : (pcUpdate c s).cause = s.cause := by
  unfold pcUpdate; split <;> rfl
@[simp] theorem pcUpdate_info (c : Byte) (s : State) : (pcUpdate c s).info = s.info := by unfold pcUpdate; split <;> rfl
@[simp] theorem pcUpdate_mem (c : Byte) (s : State) : (pcUpdate c s).mem = s.mem := by unfold pcUpdate; split <;> rfl
@[simp] theorem pcUpdate_out (c : Byte) (s : State) : (pcUpdate c s).out = s.out := by unfold pcUpdate; split <;> rfl
@[simp] theorem pcUpdate_reg (c : Byte) (s : State) (r : RegIx) : (pcUpdate c s).reg r = s.reg r := by
  unfold pcUpdate; split <;> rfl
@[simp] theorem pcUpdate_memRead (c : Byte) (s : State) (a : Addr) : (pcUpdate c s).memRead a = s.memRead a := by
  unfold pcUpdate; split <;> rfl

/-- The run has ended: part 4 does not happen (40_cycle.md R76). -/
theorem pcUpdate_of_not_running (c : Byte) {s : State} (h : s.run ≠ .running) : pcUpdate c s = s := by
  simp [pcUpdate, h]

/-! ### the handlers on operands that name registers -/

theorem exec_hlt (s : State) : exec .hlt s = .next (s.setRun .halted) := rfl

theorem exec_prn (r : RegIx) (s : State) : exec (.prn (regByte r)) s = .next (s.emit (s.reg r)) := by
  simp only [exec, execPrn, withReg_regByte]

theorem exec_ldi (r : RegIx) (imm : Byte) (s : State) : exec (.ldi (regByte r) imm) s = .next (s.setReg r imm) := by
  simp only [exec, execLdi, withReg_regByte, immediate]

theorem exec_add (a b : RegIx) (s : State) :
    exec (.add (regByte a) (regByte b)) s = .next (s.setReg a (s.reg a + s.reg b)) := by
  simp only [exec, execAdd, withReg_regByte]

theorem exec_mul (a b : RegIx) (s : State) :
    exec (.mul (regByte a) (regByte b)) s = .next (s.setReg a (s.reg a * s.reg b)) := by
  simp only [exec, execMul, withReg_regByte]

theorem exec_push (r : RegIx) (s : State) :
    exec (.push (regByte r)) s = .next (s.decSp.writeTop (s.decSp.reg r)) := by
  simp only [exec, execPush, withReg_regByte]

theorem exec_pop (r : RegIx) (s : State) : exec (.pop (regByte r)) s = .next (s.setReg r s.readTop).incSp := by
  simp only [exec, execPop, withReg_regByte]

theorem exec_call (r : RegIx) (s : State) :
    exec (.call (regByte r)) s = .next ((s.decSp.writeTop (s.pc + 2)).setPc (s.decSp.reg r)) := by
  simp only [exec, execCall, withReg_regByte, returnAddress, State.decSp_pc, addrAdd_eq, State.writeTop_reg]

theorem exec_ret (s : State) : exec .ret s = .next (s.incSp.setPc s.readTop) := rfl

/-! ### what an instruction can be, and do -/

/-- An instruction that is not well formed raises RegisterFault with one of its operand bytes, in every state. -/
theorem exec_of_not_wf {i : Instr} (h : i.wf = false) :
    ∃ v ∈ i.operands, namesReg v = false ∧ ∀ s, exec i s = .next (s.enterFault ⟨.registerFault, v⟩) := by
  have one : ∀ {u v : Byte} {k : State → RegIx → RegIx → Result}, (namesReg u && namesReg v) = false →
      ∃ w ∈ [u, v], namesReg w = false ∧
        ∀ s, withReg u s (fun a => withReg v s fun b => k s a b) = .next (s.enterFault ⟨.registerFault, w⟩) := by
    intro u v k h
    cases hu : namesReg u with
    | false => exact ⟨u, by simp, hu, fun s => withReg_bad hu s _⟩
    | true =>
      have hv : namesReg v = false := by simpa [hu] using h
      obtain ⟨a, rfl⟩ := namesReg_iff.1 hu
      exact ⟨v, by simp, hv, fun s => by rw [withReg_regByte, withReg_bad hv]⟩
  cases i with
  | hlt => cases h
  | prn r => exact ⟨r, by simp [Instr.operands], h, fun s => withReg_bad h s _⟩
  | ldi r imm => exact ⟨r, by simp [Instr.operands], h, fun s => withReg_bad h s _⟩
  | add u v => exact one h
  | mul u v => exact one h
  | push r => exact ⟨r, by simp [Instr.operands], h, fun s => withReg_bad h s _⟩
  | pop r => exact ⟨r, by simp [Instr.operands], h, fun s => withReg_bad h s _⟩
  | call r => exact ⟨r, by simp [Instr.operands], h, fun s => withReg_bad h s _⟩
  | ret => cases h

/-- The shapes of a well-formed instruction; `exec_hlt` to `exec_ret` say what each does. -/
theorem wf_cases {i : Instr} (h : i.wf = true) :
    i = .hlt ∨ (∃ r, i = .prn (regByte r)) ∨ (∃ r imm, i = .ldi (regByte r) imm) ∨
    (∃ a b, i = .add (regByte a) (regByte b)) ∨ (∃ a b, i = .mul (regByte a) (regByte b)) ∨
    (∃ r, i = .push (regByte r)) ∨ (∃ r, i = .pop (regByte r)) ∨ (∃ r, i = .call (regByte r)) ∨ i = .ret := by
  cases i <;> simp only [Instr.wf, Bool.and_eq_true, namesReg_iff] at h <;> simp_all

end Sys2Proof.Machine
end

