-- ==== Sys2Proof/Tests/Slice0.lean ====
section
/-! SUPPORT. The model's own tests. Expected results are the spec's: vectors V<n> of 95_test_vectors.md, the words of
30_encoding.md R60, R66 and R67. Then one witness per statement that has hypotheses. -/

namespace Sys2Proof.Tests

open Sys2Proof.Machine Sys2Proof.Safety

/-- The next state, if there is one. -/
def nextOf : Result → Option State
  | .next t => some t
  | .fault _ => none
  | .refused _ => none

/-- The reset state with `pc` moved and bytes placed from there on. -/
def sample (pc : Addr) (bytes : List Byte) : State := (State.reset.setPc pc).placeBytes pc bytes

/-- One field of the state after one step. -/
def after {α : Type} (s : State) (f : State → α) : Option α := (nextOf (step s)).map f

/-! ### decoding: words written bit by bit from 30_encoding.md R60 -/

theorem test_decode_hlt : decodeList [0b00000001] = .ok (.hlt, []) := by decide
theorem test_decode_prn : decodeList [0b01000111, 0b00000111] = .ok (.prn 7, []) := by decide
theorem test_decode_ldi : decodeList [0b10000010, 0b00000000, 0b00001000] = .ok (.ldi 0 8, []) := by decide
theorem test_decode_add : decodeList [0b10100000, 0b00000001, 0b00000010] = .ok (.add 1 2, []) := by decide
theorem test_decode_mul : decodeList [0b10100010, 0b00000011, 0b00000100] = .ok (.mul 3 4, []) := by decide
theorem test_decode_push : decodeList [0b01000101, 0b00000101] = .ok (.push 5, []) := by decide
theorem test_decode_pop : decodeList [0b01000110, 0b00000110] = .ok (.pop 6, []) := by decide
theorem test_decode_call : decodeList [0b01010000, 0b00000001] = .ok (.call 1, []) := by decide
theorem test_decode_ret : decodeList [0b00010001, 0b00000001] = .ok (.ret, [1]) := by decide
/-- V4: the match is on the whole byte, so 0x02 is not LDI. -/
theorem test_decode_wholeByte : decodeList [0x02, 0x00, 0x08] = .error (.invalidInstruction 0x02) := by decide
theorem test_decode_truncated : decodeList [0x82, 0x00] = .error .truncated := by decide
theorem test_decodeTableWord : decodeTableWord 24 0x0800FF82 = some (.ldi 0xFF 0) := by decide
theorem test_decodeTableWord_short : decodeTableWord 8 0xFFA0 = some (.add 0 0) := by decide

/-! ### well-formedness: one ill-formed term per check -/

theorem test_wf_prn : Instr.wf (.prn 8) = false := by decide
theorem test_wf_ldi : Instr.wf (.ldi 255 0) = false ∧ Instr.wf (.ldi 7 255) = true := by decide
theorem test_wf_add_first : Instr.wf (.add 8 0) = false := by decide
theorem test_wf_add_second : Instr.wf (.add 7 8) = false := by decide
theorem test_wf_mul_first : Instr.wf (.mul 8 0) = false := by decide
theorem test_wf_mul_second : Instr.wf (.mul 0 128) = false := by decide
theorem test_wf_push : Instr.wf (.push 8) = false := by decide
theorem test_wf_pop : Instr.wf (.pop 9) = false := by decide
theorem test_wf_call : Instr.wf (.call 8) = false := by decide
/-- R61 (a) to (e): an assignment that breaks each. -/
theorem test_opcodes_distinct : ¬ Config.Opcodes.distinct { opcodes with pop := 0x45 } := by decide
theorem test_opcodes_countsFit : ¬ Config.Opcodes.countsFit { opcodes with prn := 0x07 } := by decide
theorem test_opcodes_pcBitsFit : ¬ Config.Opcodes.pcBitsFit { opcodes with call := 0x40 } := by decide
theorem test_opcodes_aluBitsFit : ¬ Config.Opcodes.aluBitsFit { opcodes with add := 0x80 } := by decide
theorem test_opcodes_noCountThree : ¬ Config.Opcodes.noCountThree { opcodes with ldi := 0xC2 } := by decide

/-! ### one step each -/

/-- V11: a HLT at the top of memory. -/
theorem test_hlt_top : after (sample 0xFF [0x01]) (fun t => (t.run, t.pc, t.cause)) = some (.halted, 0xFF, .none) := by
  decide
/-- V10: PRN r7 fetched across the wrap. -/
theorem test_prn_wrap : after (sample 0xFF [0x47, 0x07]) (fun t => (t.out, t.pc)) = some ([0xF4], 0x01) := by decide
/-- V26. -/
theorem test_prn_bad : after (sample 0 [0x47, 0x08]) (fun t => (t.run, t.cause, t.info, t.pc, t.out)) =
    some (.faulted, .registerFault, 8, 0, []) := by decide
/-- V9: LDI fetched across the wrap. -/
theorem test_ldi_wrap : after (sample 0xFE [0x82, 0x00, 0x2A]) (fun t => (t.reg 0, t.pc)) = some (0x2A, 0x01) := by
  decide
/-- V33. -/
theorem test_ldi_sp : after (sample 0 [0x82, 0x07, 0x10]) (fun t => (t.sp, t.pc)) = some (0x10, 3) := by decide
/-- V36. -/
theorem test_add_wraps : after (((sample 0 [0xA0, 0, 1]).setReg 0 200).setReg 1 100)
    (fun t => (t.reg 0, t.reg 1, t.pc)) = some (44, 100, 3) := by decide
/-- V43b: both operands bad, the first is reported. -/
theorem test_add_bothBad : after (sample 0 [0xA0, 9, 12]) (fun t => (t.run, t.info)) = some (.faulted, 9) := by decide
/-- V46. -/
theorem test_mul_wraps : after (((sample 0 [0xA2, 0, 1]).setReg 0 255).setReg 1 255)
    (fun t => (t.reg 0, t.reg 1, t.pc)) = some (1, 255, 3) := by decide
/-- V55. -/
theorem test_mul_bad : after ((sample 0 [0xA2, 0, 8]).setReg 0 7) (fun t => (t.cause, t.info, t.reg 0)) =
    some (.registerFault, 8, 7) := by decide
/-- V62: PUSH r7 stores the decremented value. -/
theorem test_push_sp : after (sample 0 [0x45, 7]) (fun t => (t.sp, t.memRead 0xF3, t.pc)) = some (0xF3, 0xF3, 2) := by
  decide
/-- V61: the stack pointer wraps. -/
theorem test_push_wraps : after (((sample 0x20 [0x45, 1]).setReg 1 0xAB).setReg 7 0)
    (fun t => (t.sp, t.memRead 0xFF, t.pc)) = some (0xFF, 0xAB, 0x22) := by decide
/-- V67: POP r7 leaves the loaded value plus one. -/
theorem test_pop_sp : after (((sample 0 [0x46, 7]).setReg 7 0xF3).memWrite 0xF3 0x20) (fun t => (t.sp, t.pc)) =
    some (0x21, 2) := by decide
/-- V65. -/
theorem test_pop_wraps : after (((sample 0x20 [0x46, 2]).setReg 7 0xFF).memWrite 0xFF 9)
    (fun t => (t.reg 2, t.sp, t.pc)) = some (9, 0, 0x22) := by decide
/-- V82: CALL across the wrap. -/
theorem test_call_wraps : after ((sample 0xFF [0x50, 2]).setReg 2 0x40) (fun t => (t.memRead 0xF3, t.sp, t.pc)) =
    some (1, 0xF3, 0x40) := by decide
/-- V83: CALL r7 targets the decremented stack pointer. -/
theorem test_call_sp : after (sample 0x10 [0x50, 7]) (fun t => (t.memRead 0xF3, t.sp, t.pc)) =
    some (0x12, 0xF3, 0xF3) := by decide
/-- V88. -/
theorem test_ret_wraps : after (((sample 0x20 [0x11]).setReg 7 0xFF).memWrite 0xFF 0x77) (fun t => (t.sp, t.pc)) =
    some (0, 0x77) := by decide
/-- V87: RET on an empty stack. -/
theorem test_ret_empty : after (sample 0 [0x11]) (fun t => (t.sp, t.pc, t.run)) = some (0xF5, 0, .running) := by decide
/-- V3: bit 5 set, still InvalidInstruction. -/
theorem test_invalid_alu : after (sample 0x10 [0xA1, 0, 1]) (fun t => (t.run, t.cause, t.info, t.pc)) =
    some (.faulted, .invalidInstruction, 0xA1, 0x10) := by decide
/-- V5: the operand bytes of an invalid opcode are not looked at. -/
theorem test_invalid_first : after (sample 0x10 [0xC1, 9, 9]) (fun t => (t.cause, t.info)) =
    some (.invalidInstruction, 0xC1) := by decide
/-- V7: no step is taken when HALTED. -/
theorem test_halted : nextOf (step ((sample 0 [0x82, 0, 8]).setRun .halted)) =
    some ((sample 0 [0x82, 0, 8]).setRun .halted) := by decide
/-- P7, its last step: the HLT that a PUSH wrote. -/
theorem test_selfModifying : ((nextOf (step (((sample 6 [0x45, 0]).setReg 0 1).setReg 7 9))).bind
    fun t => after t fun u => (u.run, u.pc)) = some (.halted, 8) := by decide

/-! ### the host's side -/

/-- The file of 30_encoding.md R67. -/
theorem test_load : loadText (some "# load 8\n10000010 # LDI\n00000000 # r0\n 00001000\n\n00000001 # HLT\n".toList) =
    .ok [0x82, 0x00, 0x08, 0x01] := by decide
theorem test_load_notBase2 : loadText (some "10000012".toList) = .error .notBase2 := by decide
theorem test_load_overWide : loadText (some "100000000".toList) = .error .overWide := by decide
theorem test_boot_tooLong : boot (List.replicate 257 0x01) = none := if_neg (by rw [List.length_replicate]; decide)
/-- 41_system_io.md R92. -/
theorem test_render : renderOut [72, 5, 0, 255] = "72\n5\n0\n255\n".toList := by decide
theorem test_exit : exitStatus (State.reset.setRun .halted) = some 0 ∧
    exitStatus (State.reset.enterFault ⟨.registerFault, 8⟩) = some 2 := by decide

/-! ### the rows of spec/opcode_table.json, run as the first instruction after reset -/

theorem test_withFetchWord : after (State.reset.withFetchWord 24 0x2A0282) (fun t => (t.reg 2, t.pc)) =
    some (0x2A, 3) := by decide

/-! ### witnesses: every statement with hypotheses, met at concrete values -/

theorem witness_EncodeOfDecodeIsTheBytes :
    decodeList [0x82, 0x02, 0xC8, 0x11] = .ok (.ldi 2 200, [0x11]) := by decide
theorem witness_RoundTripUnderAnyOpcodeAssignment :
    Config.Opcodes.wf { opcodes with hlt := 0x0F, ldi := 0x8F } := by decide
theorem witness_UnusedOperandBytesAreIgnored_none : operandCount 0x11 = 0 := by decide
theorem witness_UnusedOperandBytesAreIgnored_one : operandCount 0x47 = 1 := by decide
theorem witness_StepRunsTheDecodedInstruction :
    let s := sample 0xFE [0xA0, 7, 0]
    s.run = .running ∧ decode (fetch s).cmd (fetch s).opA (fetch s).opB = .ok (.add 7 0) := by decide
theorem witness_EncodedBytesAtPcRunTheirInstruction :
    let s := sample 0xFF [0x82, 7, 0x10]
    s.run = .running ∧ ∀ k (h : k < (encode (.ldi 7 0x10)).length),
      s.memRead (s.pc + BitVec.ofNat 8 k) = (encode (.ldi 7 0x10))[k] := by
  refine ⟨rfl, fun k h => ?_⟩
  have : k < 3 := h
  interval_cases k <;> rfl
theorem witness_EndedMachineNeverChanges_halted : Ended (State.reset.setRun .halted) := by decide
theorem witness_EndedMachineNeverChanges_faulted : Ended (State.reset.enterFault ⟨.invalidInstruction, 0⟩) := by decide
theorem witness_PcAfterEachKindOfStep_running :
    ∃ s t, s.run = .running ∧ decode (fetch s).cmd (fetch s).opA (fetch s).opB = .ok (.call 7) ∧
      step s = .next t ∧ t.run = .running :=
  ⟨sample 0x10 [0x50, 7], _, rfl, by decide, rfl, by decide⟩
theorem witness_PcAfterEachKindOfStep_ended :
    ∃ s t, s.run = .running ∧ decode (fetch s).cmd (fetch s).opA (fetch s).opB = .ok .hlt ∧
      step s = .next t ∧ t.run ≠ .running :=
  ⟨sample 0x10 [0x01], _, rfl, by decide, rfl, by decide⟩
theorem witness_HltHaltsAndKeepsPc :
    (sample 0xFF [0x01]).run = .running ∧ (fetch (sample 0xFF [0x01])).cmd = 0x01 := by decide
theorem witness_PrnEmitsTheRegister :
    let s := sample 0xFF [0x47, 7]
    s.run = .running ∧ (fetch s).cmd = 0x47 ∧ (fetch s).opA = regByte 7 := by decide
/-- The operand bytes 8 and 255 meet every clause about an operand of 8 or more. -/
theorem witness_badOperand : 8 ≤ (8 : Byte).toNat ∧ 8 ≤ (255 : Byte).toNat := by decide
theorem witness_LdiLoadsTheImmediate :
    let s := sample 0xFE [0x82, 7, 0xFF]
    s.run = .running ∧ (fetch s).cmd = 0x82 ∧ (fetch s).opA = regByte 7 ∧ (fetch s).opB = 0xFF := by decide
theorem witness_AddAddsModulo256 :
    let s := sample 0 [0xA0, 7, 7]
    s.run = .running ∧ (fetch s).cmd = 0xA0 ∧ (fetch s).opA = regByte 7 ∧ (fetch s).opB = regByte 7 := by decide
theorem witness_MulMultipliesModulo256 :
    let s := sample 0 [0xA2, 0, 7]
    s.run = .running ∧ (fetch s).cmd = 0xA2 ∧ (fetch s).opA = regByte 0 ∧ (fetch s).opB = regByte 7 := by decide
/-- The last clause of the statements about ADD and MUL. -/
theorem witness_secondOperandBad : (7 : Byte).toNat < 8 ∧ 8 ≤ (8 : Byte).toNat := by decide
theorem witness_PushStoresBelowTheStackPointer :
    let s := (sample 0x20 [0x45, 7]).setReg 7 0
    Memory.wf s.mem ∧ s.run = .running ∧ (fetch s).cmd = 0x45 ∧ (fetch s).opA = regByte 7 := by decide
theorem witness_PopLoadsFromTheStackPointer :
    let s := (sample 0x20 [0x46, 0]).setReg 7 0xFF
    s.run = .running ∧ (fetch s).cmd = 0x46 ∧ (fetch s).opA = regByte 0 := by decide
theorem witness_CallPushesTheReturnAddressAndJumps :
    let s := sample 0xFF [0x50, 7]
    Memory.wf s.mem ∧ s.run = .running ∧ (fetch s).cmd = 0x50 ∧ (fetch s).opA = regByte 7 := by decide
theorem witness_RetJumpsToTheByteOnTheStack :
    (sample 0xFF [0x11]).run = .running ∧ (fetch (sample 0xFF [0x11])).cmd = 0x11 := by decide
theorem witness_PushThenPopRestores_adjacent :
    let s := sample 0 [0x45, 7, 0x46, 7]
    Memory.wf s.mem ∧ s.run = .running ∧ s.memRead s.pc = 0x45 ∧ s.memRead (s.pc + 1) = regByte 7 ∧
      s.memRead (s.pc + 2) = 0x46 ∧ s.memRead (s.pc + 3) = regByte 7 ∧ s.sp - 1 ≠ s.pc + 2 ∧ s.sp - 1 ≠ s.pc + 3 := by
  decide
theorem witness_PushThenPopRestores_later :
    ∃ s t u : State, Memory.wf s.mem ∧ s.run = .running ∧ s.memRead s.pc = 0x45 ∧
      s.memRead (s.pc + 1) = regByte 3 ∧ step s = .next t ∧ u.run = .running ∧ u.memRead u.pc = 0x46 ∧
      u.memRead (u.pc + 1) = regByte 3 ∧ u.sp = t.sp ∧ u.memRead t.sp = t.memRead t.sp :=
  ⟨(sample 0 [0x45, 3]).setReg 3 0x5A, _, ((sample 0x80 [0x46, 3]).setReg 7 0xF3).memWrite 0xF3 0x5A,
    by decide, rfl, by decide, by decide, rfl, rfl, by decide, by decide, by decide, by decide⟩
theorem witness_CallThenRetResumesAfterTheCall :
    let s := (sample 6 [0x50, 1]).setReg 1 0x0E
    let u := ((sample 0x0E [0x11]).setReg 7 0xF3).memWrite 0xF3 0x08
    Memory.wf s.mem ∧ s.run = .running ∧ (fetch s).cmd = 0x50 ∧ (fetch s).opA = regByte 1 ∧
      u.run = .running ∧ (fetch u).cmd = 0x11 ∧ u.sp = s.sp - 1 ∧ u.memRead (s.sp - 1) = s.pc + 2 := by decide
theorem witness_PushedByteIsSeenByTheNextFetch_cmd :
    let s := (sample 6 [0x45, 0]).setReg 7 9
    Memory.wf s.mem ∧ s.run = .running ∧ (fetch s).cmd = 0x45 ∧ (fetch s).opA = regByte 0 ∧ s.sp - 1 = s.pc + 2 := by
  decide
theorem witness_PushedByteIsSeenByTheNextFetch_opA :
    let s := (sample 0xFD [0x45, 6]).setReg 7 1
    Memory.wf s.mem ∧ s.run = .running ∧ (fetch s).cmd = 0x45 ∧ (fetch s).opA = regByte 6 ∧ s.sp - 1 = s.pc + 3 := by
  decide
theorem witness_PushedByteIsSeenByTheNextFetch_opB :
    let s := (sample 0xFC [0x45, 6]).setReg 7 1
    Memory.wf s.mem ∧ s.run = .running ∧ (fetch s).cmd = 0x45 ∧ (fetch s).opA = regByte 6 ∧ s.sp - 1 = s.pc + 4 := by
  decide
theorem witness_UnknownOpcodeRaisesInvalidInstruction :
    let s := sample 0x10 [0xFF]
    s.run = .running ∧ s.memRead s.pc ∉ [0x01, 0x47, 0x82, 0xA0, 0xA2, 0x45, 0x46, 0x50, 0x11] := by decide
theorem witness_BadRegisterOperandRaisesRegisterFault_first :
    let s := sample 0 [0x50, 8]
    s.run = .running ∧ (fetch s).cmd ∈ [0x47, 0x82, 0xA0, 0xA2, 0x45, 0x46, 0x50] ∧ 8 ≤ (fetch s).opA.toNat := by decide
theorem witness_BadRegisterOperandRaisesRegisterFault_second :
    let s := sample 0 [0xA0, 7, 8]
    s.run = .running ∧ (fetch s).cmd ∈ [0xA0, 0xA2] ∧ (fetch s).opA.toNat < 8 ∧ 8 ≤ (fetch s).opB.toNat := by decide
theorem witness_HandlerFaultsExactlyOnBadRegisterOperand :
    ∃ s t u : State, s.run = .running ∧ exec (.mul 7 8) s = .next t ∧ t.run = .faulted ∧
      exec (.mul 7 7) s = .next u ∧ u.run = .running :=
  ⟨State.reset, _, _, rfl, rfl, by decide, rfl, by decide⟩
theorem witness_FaultEntryChangesOnlyTheStatus :
    ∃ s t, s.run = .running ∧ step s = .next t ∧ t.run = .faulted :=
  ⟨sample 0 [0xA2, 0, 8], _, rfl, rfl, by decide⟩
theorem witness_UnsupportedAluOperationIsNeverRaised_kept :
    ∃ s t, step s = .next t ∧ t.cause = .unsupportedALUOperation :=
  ⟨State.reset.enterFault ⟨.unsupportedALUOperation, 0xA1⟩, _, rfl, by decide⟩
theorem witness_UnsupportedAluOperationIsNeverRaised_bit5 :
    let s := sample 0 [0xA1]
    s.run = .running ∧ (fetch s).cmd.getLsbD 5 = true ∧ (fetch s).cmd ≠ 0xA0 ∧ (fetch s).cmd ≠ 0xA2 := by decide
theorem witness_OnlyPushAndCallWriteMemory :
    ∃ s t, Memory.wf s.mem ∧ step s = .next t ∧ t.memRead 0xF3 ≠ s.memRead 0xF3 :=
  ⟨sample 0x10 [0x50, 7], _, by decide, rfl, by decide⟩
theorem witness_InstructionsWriteOnlyTheirRegisters :
    ∃ s t, exec (.pop 0) s = .next t ∧ t.reg 7 ≠ s.reg 7 :=
  ⟨State.reset, _, rfl, by decide⟩
theorem witness_OutputGrowsAtPrnAndInfluencesNothing :
    ∃ s t, step s = .next t ∧ t.out = s.out ++ [0xF4] :=
  ⟨sample 0 [0x47, 7], _, rfl, by decide⟩
theorem witness_RunEndsOnlyByHltOrFault_halted :
    ∃ s t, s.run = .running ∧ step s = .next t ∧ t.run = .halted :=
  ⟨sample 0 [0x01], _, rfl, rfl, by decide⟩
theorem witness_RunEndsOnlyByHltOrFault_faulted :
    ∃ s t, s.run = .running ∧ step s = .next t ∧ t.run = .faulted :=
  ⟨State.reset, _, rfl, rfl, by decide⟩
theorem witness_ReadAfterWrite : Memory.wf (sample 0xFE [1, 2, 3]).mem := by decide
theorem witness_CanonicalMemoriesThatReadAlikeAreEqual :
    let m := ((State.reset.memWrite 0xFF 5).memWrite 0 7).mem
    let m' := ((State.reset.memWrite 0 7).memWrite 0xFF 5).mem
    Memory.wf m ∧ Memory.wf m' ∧ ∀ a : Addr, Memory.get m a.toNat = Memory.get m' a.toNat := by decide
theorem witness_BootLoadsTheImage_full : (List.replicate 256 (0x01 : Byte)).length ≤ 256 := List.length_replicate.le
theorem witness_BootLoadsTheImage_tooLong : 256 < (List.replicate 257 (0x01 : Byte)).length := by rw [List.length_replicate]; decide
theorem witness_CommentsAndBlankLinesDoNotChangeTheImage : trim (stripComment " \t# a comment".toList) = [] := by decide
theorem witness_EveryStepKeepsTheInvariant :
    ∃ s t, Inv s ∧ step s = .next t ∧ t.run = .faulted :=
  ⟨sample 0 [0xA0, 7, 9], _, by decide, rfl, by decide⟩
theorem witness_EveryRunOfEveryImageIsSound : (List.replicate 256 (0xFF : Byte)).length ≤ 256 := List.length_replicate.le

end Sys2Proof.Tests
end

section
/-! The memory accessors (20_memory.md): MemRead and MemWrite as the obligations of this family state them. -/

namespace Sys2Proof.Proofs

open Sys2Proof.Machine Sys2Proof.Safety

theorem memRead_memWrite_self {s : State} (h : Memory.wf s.mem) (a : Addr) (v : Byte) :
    (s.memWrite a v).memRead a = v := by
  rw [State.memRead_memWrite h, if_pos rfl]

theorem memExcept_memWrite {s : State} (h : Memory.wf s.mem) (a : Addr) (v : Byte) :
    MemExcept a s (s.memWrite a v) := by
  intro q hq
  rw [State.memRead_memWrite h, if_neg hq]

/-- Settles O35: the read-after-write law at the written address and at every other one; that nothing but memory
changes is MemWrite's definition. -/
theorem readAfterWrite : Obligations.ReadAfterWrite := by
  intro s a v h
  exact ⟨Memory.put s.mem a.toNat v, rfl, memRead_memWrite_self h a v, memExcept_memWrite h a v⟩

end Sys2Proof.Proofs
end

section
/-! The step (40_cycle.md): every handler answers a next state, and what the pc update adds, in the opcode byte's own
bits. -/

namespace Sys2Proof.Proofs

open Sys2Proof.Machine Sys2Proof.Safety

/-- No handler stops the machine: a bad register operand is a next state too (60_exceptions.md R139). -/
theorem exec_eq_next (i : Instr) (s : State) : ∃ t, exec i s = .next t := by
  cases hw : i.wf with
  | false =>
    obtain ⟨v, -, -, hx⟩ := exec_of_not_wf hw
    exact ⟨_, hx s⟩
  | true =>
    obtain rfl | ⟨r, rfl⟩ | ⟨r, imm, rfl⟩ | ⟨a, b, rfl⟩ | ⟨a, b, rfl⟩ | ⟨r, rfl⟩ | ⟨r, rfl⟩ | ⟨r, rfl⟩ | rfl :=
      wf_cases hw
    · exact ⟨_, exec_hlt s⟩
    · exact ⟨_, exec_prn r s⟩
    · exact ⟨_, exec_ldi r imm s⟩
    · exact ⟨_, exec_add a b s⟩
    · exact ⟨_, exec_mul a b s⟩
    · exact ⟨_, exec_push r s⟩
    · exact ⟨_, exec_pop r s⟩
    · exact ⟨_, exec_call r s⟩
    · exact ⟨_, exec_ret s⟩

/-- The length of an instruction as a word (30_encoding.md R50, R52). -/
theorem ofNat_lengthOf (cmd : Byte) : BitVec.ofNat Config.pcw (lengthOf cmd) = (1 : Byte) + cmd >>> 6 := by
  rw [lengthOf, operandCount, BitVec.ofNat_add, BitVec.ofNat_toNat, BitVec.setWidth_eq]
  rfl

/-- The pc update in the words of 40_cycle.md R75. -/
theorem pcUpdate_eq (cmd : Byte) (t : State) :
    pcUpdate cmd t =
      if t.run = .running ∧ cmd.getLsbD 4 = false then { t with pc := t.pc + (1 + cmd >>> 6) } else t := by
  rw [pcUpdate, ofNat_lengthOf]
  rfl

/-- Settles O9: the handler answers a next state, which the pc update takes on. -/
theorem stepRunsTheDecodedInstruction : Obligations.StepRunsTheDecodedInstruction := by
  intro s i hr hd
  obtain ⟨t, hx⟩ := exec_eq_next i s
  rw [step_of_decode hr hd hx, hx, pcUpdate_eq]

end Sys2Proof.Proofs
end

section
/-! The system instructions (41_system_io.md), and what they share with the other handlers: a step that moves `pc`
past its instruction, and a register operand of 8 or more. -/

namespace Sys2Proof.Proofs

open Sys2Proof.Machine Sys2Proof.Safety

/-- A step whose handler lets the run go on, with bit C clear, moves `pc` past the instruction (40_cycle.md R75). -/
theorem step_of_decode_advance {s t : State} {i : Instr} {cmd opA opB : Byte} (hf : fetch s = ⟨cmd, opA, opB⟩)
    (hd : decode cmd opA opB = .ok i) (hx : exec i s = .next t) (hs : s.run = .running) (ht : t.run = .running)
    (hc : setsPc cmd = false) :
    step s = .next (t.setPc (t.pc + BitVec.ofNat Config.pcw (lengthOf cmd))) := by
  have hd' : decode (fetch s).cmd (fetch s).opA (fetch s).opB = .ok i := by rw [hf]; exact hd
  rw [step_of_decode hs hd' hx, hf, pcUpdate, if_pos ⟨ht, hc⟩, addrAdd_eq]

/-- An operand byte of 8 or more names no register (30_encoding.md R57). -/
theorem namesReg_eq_false {b : Byte} (h : 8 ≤ b.toNat) : namesReg b = false :=
  decide_eq_false (Nat.not_lt.mpr h)

/-- A handler that begins with a register operand of 8 or more raises RegisterFault (60_exceptions.md R133). -/
theorem withReg_registerFaulted {b : Byte} (h : 8 ≤ b.toNat) (s : State) (k : RegIx → Result) :
    ∃ t, withReg b s k = .next t ∧ RegisterFaulted b s t :=
  ⟨_, withReg_bad (namesReg_eq_false h) s k, rfl⟩

/-- PRN as a step: the value emitted, and `pc` past its two bytes (41_system_io.md R91). -/
theorem step_prn {s : State} {r : RegIx} (hs : s.run = .running) (hcmd : (fetch s).cmd = 0x47)
    (hopA : (fetch s).opA = regByte r) : step s = .next ((s.emit (s.reg r)).setPc (s.pc + 2)) := by
  have hf : fetch s = ⟨0x47, regByte r, (fetch s).opB⟩ := by rw [← hcmd, ← hopA]
  have hd : decode 0x47 (regByte r) (fetch s).opB = .ok (.prn (regByte r)) := rfl
  exact step_of_decode_advance hf hd (exec_prn r s) hs hs (by decide)

/-- Settles O15: a register operand emits and the step moves `pc` by 2; any other operand raises RegisterFault. -/
theorem prnEmitsTheRegister : Obligations.PrnEmitsTheRegister := by
  intro s
  constructor
  · intro r
    exact ⟨s.emit (s.reg r), exec_prn r s, s.emit_out _, fun q _ => s.emit_reg _ q, s.emit_memRead _,
      ⟨s.emit_run _, s.emit_cause _, s.emit_info _⟩, s.emit_pc _, step_prn⟩
  · intro b hb
    exact withReg_registerFaulted hb s _

end Sys2Proof.Proofs
end

section
/-! The data and ALU instructions (42_data_alu.md). LDI, ADD and MUL each write one register and have three bytes, so
one lemma gives the effect, the frame and the step of all three. -/

namespace Sys2Proof.Proofs

open Sys2Proof.Machine Sys2Proof.Safety

/-- A three-byte instruction whose handler writes `x[r]` moves `pc` past itself (40_cycle.md R75). -/
theorem step_of_exec_setReg {s : State} {i : Instr} {r : RegIx} {v : RegWord} {cmd opA opB : Byte}
    (hx : exec i s = .next (s.setReg r v)) (hd : decode cmd opA opB = .ok i) (hc : setsPc cmd = false)
    (hl : lengthOf cmd = 3) (hs : s.run = .running) (hcmd : (fetch s).cmd = cmd) (hopA : (fetch s).opA = opA)
    (hopB : (fetch s).opB = opB) : step s = .next ((s.setReg r v).setPc (s.pc + 3)) := by
  have hf : fetch s = ⟨cmd, opA, opB⟩ := by rw [← hcmd, ← hopA, ← hopB]
  rw [step_of_decode_advance hf hd hx hs hs hc, hl]
  rfl

/-- A three-byte instruction whose handler writes `x[r]` completes: it leaves everything else as it was, and its step
moves `pc` by 3. -/
theorem completes_of_exec_setReg {s : State} {i : Instr} {r : RegIx} {v : RegWord} {cmd opA opB : Byte}
    (hx : exec i s = .next (s.setReg r v)) (hd : decode cmd opA opB = .ok i) (hc : setsPc cmd = false)
    (hl : lengthOf cmd = 3) :
    ∃ t, exec i s = .next t ∧ t.reg r = v ∧
      RegsExcept [r] s t ∧ MemSame s t ∧ StatusSame s t ∧ t.out = s.out ∧ t.pc = s.pc ∧
      (s.run = .running → (fetch s).cmd = cmd → (fetch s).opA = opA → (fetch s).opB = opB →
        step s = .next { t with pc := s.pc + 3 }) := by
  have hregs : RegsExcept [r] s (s.setReg r v) := fun q hq => s.reg_setReg_of_ne (List.ne_of_not_mem_cons hq) v
  exact ⟨s.setReg r v, hx, s.reg_setReg_self r v, hregs, s.setReg_memRead r v,
    ⟨s.setReg_run r v, s.setReg_cause r v, s.setReg_info r v⟩, s.setReg_out r v, s.setReg_pc r v,
    step_of_exec_setReg hx hd hc hl⟩

/-- The second register operand is checked once the first names a register (60_exceptions.md R138). -/
theorem withReg_withReg_registerFaulted {u v : Byte} (hu : u.toNat < 8) (hv : 8 ≤ v.toNat) (s : State)
    (k : RegIx → RegIx → Result) :
    ∃ t, (withReg u s fun a => withReg v s (k a)) = .next t ∧ RegisterFaulted v s t := by
  rw [← regByte_of_lt hu, withReg_regByte]
  exact withReg_registerFaulted hv s _

/-- Settles O16: LDI writes the immediate to its register; any other register operand raises RegisterFault. -/
theorem ldiLoadsTheImmediate : Obligations.LdiLoadsTheImmediate := by
  intro s imm
  constructor
  · intro r
    exact completes_of_exec_setReg (exec_ldi r imm s) rfl (by decide) (by decide)
  · intro b hb
    exact withReg_registerFaulted hb s _

/-- Settles O17: ADD writes the sum, which in numbers is modulo 256; the operand checks fault in their order. -/
theorem addAddsModulo256 : Obligations.AddAddsModulo256 := by
  intro s
  refine ⟨fun a b => ?completes, fun u v hu => ?first, fun u v hu hv => ?second⟩
  case completes =>
    obtain ⟨t, hx, hsum, hframe⟩ :=
      completes_of_exec_setReg (cmd := 0xA0) (exec_add a b s) rfl (by decide) (by decide)
    exact ⟨t, hx, hsum ▸ word_toNat_add _ _, hframe⟩
  case first => exact withReg_registerFaulted hu s _
  case second => exact withReg_withReg_registerFaulted hu hv s _

/-- Settles O18: MUL writes the low 8 bits of the product; the operand checks fault in their order. -/
theorem mulMultipliesModulo256 : Obligations.MulMultipliesModulo256 := by
  intro s
  refine ⟨fun a b => ?completes, fun u v hu => ?first, fun u v hu hv => ?second⟩
  case completes =>
    obtain ⟨t, hx, hprod, hframe⟩ :=
      completes_of_exec_setReg (cmd := 0xA2) (exec_mul a b s) rfl (by decide) (by decide)
    exact ⟨t, hx, hprod ▸ BitVec.toNat_mul _ _, hframe⟩
  case first => exact withReg_registerFaulted hu s _
  case second => exact withReg_withReg_registerFaulted hu hv s _

end Sys2Proof.Proofs
end

section
/-! The control transfers (44_control.md): CALL and RET set `pc` themselves, so their step is their handler; and the
pair of a CALL with the RET of its subroutine. -/

namespace Sys2Proof.Proofs

open Sys2Proof.Machine Sys2Proof.Safety

/-- With bit C set the loop leaves `pc` alone: the step answers what the handler answers (40_cycle.md R75). -/
theorem step_of_decode_setsPc {s t : State} {i : Instr} {cmd opA opB : Byte} (hf : fetch s = ⟨cmd, opA, opB⟩)
    (hd : decode cmd opA opB = .ok i) (hx : exec i s = .next t) (hs : s.run = .running) (hc : setsPc cmd = true) :
    step s = .next t := by
  have hd' : decode (fetch s).cmd (fetch s).opA (fetch s).opB = .ok i := by rw [hf]; exact hd
  have hno : ¬ (t.run = .running ∧ setsPc cmd = false) := by simp [hc]
  rw [step_of_decode hs hd' hx, hf, pcUpdate, if_neg hno]

/-- CALL as a step: the return address stored below the stack pointer, then the jump (44_control.md R120). -/
theorem step_call {s : State} {r : RegIx} (hs : s.run = .running) (hcmd : (fetch s).cmd = 0x50)
    (hopA : (fetch s).opA = regByte r) :
    step s = .next ((s.decSp.writeTop (s.pc + 2)).setPc (s.decSp.reg r)) := by
  have hf : fetch s = ⟨0x50, regByte r, (fetch s).opB⟩ := by rw [← hcmd, ← hopA]
  exact step_of_decode_setsPc hf rfl (exec_call r s) hs (by decide)

/-- RET as a step: the jump to the byte on top of the stack, which is popped (44_control.md R121). -/
theorem step_ret {s : State} (hs : s.run = .running) (hcmd : (fetch s).cmd = 0x11) :
    step s = .next (s.incSp.setPc s.readTop) := by
  have hf : fetch s = ⟨0x11, (fetch s).opA, (fetch s).opB⟩ := by rw [← hcmd]
  exact step_of_decode_setsPc hf rfl (exec_ret s) hs (by decide)

/-- The post-increment writes `x[7]` only. -/
theorem incSp_reg_of_ne (s : State) {q : RegIx} (h : q ≠ 7) : s.incSp.reg q = s.reg q :=
  s.reg_setReg_of_ne h _

/-- A value pushed, by PUSH or CALL, is the byte below the old stack pointer (43_stack.md R112). -/
theorem memRead_decSp_writeTop {s : State} (h : Memory.wf s.mem) (v : Byte) :
    (s.decSp.writeTop v).memRead (s.sp - 1) = v := by
  have hw : s.decSp.writeTop v = s.decSp.memWrite (s.sp - 1) v := by rw [State.writeTop, State.decSp_sp]
  rw [hw]
  exact memRead_memWrite_self h _ v

/-- Settles O22: the handler's writes are the increment of `x[7]` and the jump. -/
theorem retJumpsToTheByteOnTheStack : Obligations.RetJumpsToTheByteOnTheStack := by
  intro s
  have hregs : RegsExcept [7] s (s.incSp.setPc s.readTop) := fun q hq => incSp_reg_of_ne s (List.ne_of_not_mem_cons hq)
  exact ⟨s.incSp.setPc s.readTop, exec_ret s, State.setPc_pc _ _, s.incSp_sp, hregs, s.incSp_memRead,
    ⟨s.incSp_run, s.incSp_cause, s.incSp_info⟩, s.incSp_out, step_ret⟩

/-- Settles O24: CALL leaves the return address on top of the stack, where RET finds it; RET's increment undoes CALL's
decrement. -/
theorem callThenRetResumesAfterTheCall : Obligations.CallThenRetResumesAfterTheCall := by
  intro s r hwf hs hcmd hopA
  constructor
  · exact ⟨_, step_call hs hcmd hopA, s.decSp_sp, memRead_decSp_writeTop hwf (s.pc + 2)⟩
  · intro u hu hret hsp htop
    refine ⟨_, step_ret hu hret, ?pc, ?sp⟩
    case pc => rw [State.setPc_pc, State.readTop, hsp, htop]
    case sp => rw [State.setPc_sp, State.incSp_sp, hsp, word_sub_add_cancel]

end Sys2Proof.Proofs
end

section
/-! The fault cause (60_exceptions.md): the three ways a step goes, and what each of them leaves in `cause`. -/

namespace Sys2Proof.Proofs

open Sys2Proof.Machine Sys2Proof.Safety

/-- Everything a step can do: nothing once the run has ended, raise InvalidInstruction, or run an instruction and
update pc (40_cycle.md R71 to R76). -/
theorem step_cases {s t : State} (h : step s = .next t) :
    (s.run ≠ .running ∧ t = s) ∨
    (s.run = .running ∧ (∃ e, decode (fetch s).cmd (fetch s).opA (fetch s).opB = .error e) ∧
      t = s.enterFault ⟨.invalidInstruction, (fetch s).cmd⟩) ∨
    (s.run = .running ∧ ∃ i u, decode (fetch s).cmd (fetch s).opA (fetch s).opB = .ok i ∧ exec i s = .next u ∧
      t = pcUpdate (fetch s).cmd u) := by
  by_cases hr : s.run = .running
  · right
    cases hd : decode (fetch s).cmd (fetch s).opA (fetch s).opB with
    | error e =>
      rw [step_of_invalid hr hd] at h
      cases h
      exact .inl ⟨hr, ⟨e, rfl⟩, rfl⟩
    | ok i =>
      obtain ⟨u, hx⟩ := exec_eq_next i s
      rw [step_of_decode hr hd hx] at h
      cases h
      exact .inr ⟨hr, i, u, rfl, hx, rfl⟩
  · rw [step_of_not_running hr] at h
    cases h
    exact .inl ⟨hr, rfl⟩

/-- A well-formed instruction leaves `cause` alone. -/
theorem exec_cause_of_wf {i : Instr} (hw : i.wf = true) (s : State) :
    ∃ t, exec i s = .next t ∧ t.cause = s.cause := by
  obtain rfl | ⟨r, rfl⟩ | ⟨r, imm, rfl⟩ | ⟨a, b, rfl⟩ | ⟨a, b, rfl⟩ | ⟨r, rfl⟩ | ⟨r, rfl⟩ | ⟨r, rfl⟩ | rfl :=
    wf_cases hw
  · exact ⟨_, exec_hlt s, s.setRun_cause _⟩
  · exact ⟨_, exec_prn r s, s.emit_cause _⟩
  · exact ⟨_, exec_ldi r imm s, s.setReg_cause r _⟩
  · exact ⟨_, exec_add a b s, s.setReg_cause a _⟩
  · exact ⟨_, exec_mul a b s, s.setReg_cause a _⟩
  · exact ⟨_, exec_push r s, s.decSp.writeTop_cause _⟩
  · exact ⟨_, exec_pop r s, (s.setReg r _).incSp_cause⟩
  · exact ⟨_, exec_call r s, s.decSp.writeTop_cause (s.pc + 2)⟩
  · exact ⟨_, exec_ret s, s.incSp_cause⟩

/-- RegisterFault is the only cause a handler writes (60_exceptions.md R133). -/
theorem exec_cause {i : Instr} {s t : State} (h : exec i s = .next t) :
    t.cause = s.cause ∨ t.cause = .registerFault := by
  cases hw : i.wf with
  | true =>
    obtain ⟨u, hu, hc⟩ := exec_cause_of_wf hw s
    cases h.symm.trans hu
    exact .inl hc
  | false =>
    obtain ⟨v, -, -, hx⟩ := exec_of_not_wf hw
    cases h.symm.trans (hx s)
    exact .inr rfl

/-- InvalidInstruction and RegisterFault are the only causes a step writes (60_exceptions.md R131, R133). -/
theorem step_cause {s t : State} (h : step s = .next t) :
    t.cause = s.cause ∨ t.cause = .invalidInstruction ∨ t.cause = .registerFault := by
  obtain ⟨-, rfl⟩ | ⟨-, -, rfl⟩ | ⟨-, i, u, -, hx, rfl⟩ := step_cases h
  · exact .inl rfl
  · exact .inr (.inl rfl)
  · rw [pcUpdate_cause]
    exact (exec_cause hx).imp_right .inr

/-- The opcode byte of a decoded instruction is one of the nine (30_encoding.md R62). -/
theorem mem_opcodes_of_decode {cmd opA opB : Byte} {i : Instr} (h : decode cmd opA opB = .ok i) :
    cmd ∈ opcodes.values :=
  (decodeWith_ok h).1 ▸ i.opcodeWith_mem opcodes

/-- Of the nine opcode bytes only ADD and MUL have bit A set (30_encoding.md R60). -/
theorem eq_add_or_mul_of_isAlu : ∀ cmd ∈ opcodes.values, isAlu cmd = true → cmd = 0xA0 ∨ cmd = 0xA2 := by
  decide

/-- Settles O30: the two causes that steps write are other ones; and a byte with bit A set that decodes is ADD or MUL,
so any other one is rejected. -/
theorem unsupportedAluOperationIsNeverRaised : Obligations.UnsupportedAluOperationIsNeverRaised := by
  refine ⟨rfl, fun s t h ht => ?kept, fun s hr halu hadd hmul => ?bit5⟩
  case kept =>
    obtain hc | hc | hc := step_cause h
    · exact hc.symm.trans ht
    · cases hc.symm.trans ht
    · cases hc.symm.trans ht
  case bit5 =>
    cases hd : decode (fetch s).cmd (fetch s).opA (fetch s).opB with
    | error e => exact ⟨_, step_of_invalid hr hd, rfl, rfl⟩
    | ok i =>
      obtain h | h := eq_add_or_mul_of_isAlu _ (mem_opcodes_of_decode hd) halu
      · exact absurd h hadd
      · exact absurd h hmul

end Sys2Proof.Proofs
end

section
/-! Reset (70_reset_and_hazards.md): what the accessors read in the state after it, which does not depend on the state
before it. -/

namespace Sys2Proof.Proofs

open Sys2Proof.Machine

/-- Nothing of the state before survives (70_reset_and_hazards.md R160). -/
theorem hostReset_eq (s : State) : hostReset s = State.reset := rfl

/-- The general registers other than the stack pointer (10_state.md R25). -/
theorem reset_reg_of_ne : ∀ r : RegIx, r ≠ 7 → State.reset.reg r = 0 := by decide

/-- The stack pointer starts at SP_INIT (10_state.md R11). -/
theorem reset_sp : State.reset.sp = Config.spInit := rfl

/-- Reset memory lists no cell, so every address reads as an unlisted one (10_state.md R20). -/
theorem reset_memRead (a : Addr) : State.reset.memRead a = 0 := Memory.get_nil a.toNat

/-- Settles O37: the state after reset is one constant, read field by field; the rest of its fields are written out in
its definition. -/
theorem resetValues : Obligations.ResetValues := by
  intro s
  rw [hostReset_eq]
  exact ⟨reset_reg_of_ne, reset_sp, rfl, rfl, rfl, rfl, reset_memRead, rfl⟩

end Sys2Proof.Proofs
end

section
/-! The encoding (30_encoding.md): the opcode map inverted, and the round trip in both directions, first for every
opcode assignment that meets the constraints of R61. -/

namespace Sys2Proof.Proofs

open Sys2Proof.Machine

/-! ### one opcode byte per instruction -/

/-- Field N of the opcode byte is the number of operand bytes (R61 (b)). -/
theorem operandCount_opcodeWith {o : Config.Opcodes} (h : o.countsFit) (i : Instr) :
    operandCount (i.opcodeWith o) = i.operands.length := by
  simp only [Config.Opcodes.countsFit, Config.Opcodes.values, List.map_cons, List.map_nil, List.cons.injEq] at h
  cases i <;> simp [Instr.opcodeWith, Instr.operands, h]

/-- The decoder answers the instruction whose opcode byte it is given, with the operand bytes it is given (R59): since
the values are distinct (R61 (a)), the tests before the instruction's own one fail. -/
theorem decodeWith_opcodeWith {o : Config.Opcodes} (h : o.distinct) {i : Instr} {a b : Byte}
    (hops : i.operands <+: [a, b]) : decodeWith o (i.opcodeWith o) a b = .ok i := by
  simp only [Config.Opcodes.distinct, Config.Opcodes.values, List.nodup_cons, List.mem_cons, not_or] at h
  cases i <;> simp_all [decodeWith, Instr.opcodeWith, Instr.operands, eq_comm]

/-! ### byte lists -/

/-- An instruction has at most two operand bytes. -/
theorem operands_length_le_two (i : Instr) : i.operands.length ≤ 2 := by
  cases i <;> simp [Instr.operands]

/-- The two bytes `decodeListWith` offers as operands are the first of the list, or 0 past its end. -/
theorem getD_getD_prefix (l : List Byte) : [l.getD 0 0, l.getD 1 0] <+: l ++ [0, 0] := by
  match l with
  | [] => exact List.prefix_rfl
  | [x] => exact ⟨[0], rfl⟩
  | x :: y :: l => exact ⟨l ++ [0, 0], rfl⟩

/-- Operand bytes that a list begins with are among the two offered. -/
theorem prefix_getD_getD {ops l : List Byte} (h : ops <+: l) (hlen : ops.length ≤ 2) :
    ops <+: [l.getD 0 0, l.getD 1 0] :=
  List.prefix_of_prefix_length_le (h.trans (l.prefix_append [0, 0])) (getD_getD_prefix l) hlen

/-- Operand bytes among the two offered are those the list begins with, if it is long enough. -/
theorem prefix_of_prefix_getD_getD {ops l : List Byte} (h : ops <+: [l.getD 0 0, l.getD 1 0])
    (hlen : ops.length ≤ l.length) : ops <+: l :=
  List.prefix_of_prefix_length_le (h.trans (getD_getD_prefix l)) (l.prefix_append [0, 0]) hlen

/-- Settles O6: the opcode byte and the operand bytes are found again, and as many bytes are taken off as there are
operands. -/
theorem roundTripUnderAnyOpcodeAssignment : Obligations.RoundTripUnderAnyOpcodeAssignment := by
  intro o ⟨hdistinct, hcounts, _⟩ i rest
  have hd : decodeWith o (i.opcodeWith o) ((i.operands ++ rest).getD 0 0) ((i.operands ++ rest).getD 1 0) = .ok i :=
    decodeWith_opcodeWith hdistinct (prefix_getD_getD (List.prefix_append _ rest) (operands_length_le_two i))
  simp only [encodeWith, List.cons_append, decodeListWith, hd, operandCount_opcodeWith hcounts]
  rw [if_neg (by simp), List.drop_left]

/-- Settles O3: the nine values are literals. -/
theorem opcodeValuesMeetTheConstraints : Obligations.OpcodeValuesMeetTheConstraints := by
  unfold Obligations.OpcodeValuesMeetTheConstraints
  decide

/-- Settles O4: the machine's assignment meets the constraints. -/
theorem decodeOfEncodeIsTheInstruction : Obligations.DecodeOfEncodeIsTheInstruction :=
  roundTripUnderAnyOpcodeAssignment opcodes opcodeValuesMeetTheConstraints

/-- The machine's decoder inverted both ways: the opcode byte and the operand bytes determine the instruction. -/
theorem decode_ok_iff {cmd a b : Byte} {i : Instr} :
    decode cmd a b = .ok i ↔ i.opcode = cmd ∧ i.operands <+: [a, b] := by
  constructor
  · exact decodeWith_ok
  · rintro ⟨rfl, hops⟩
    exact decodeWith_opcodeWith opcodeValuesMeetTheConstraints.1 hops

theorem operandCount_opcode (i : Instr) : operandCount i.opcode = i.operands.length :=
  operandCount_opcodeWith opcodeValuesMeetTheConstraints.2.1 i

/-- What `decodeList` accepts: an opcode byte, the operand bytes it asks for, and the rest. -/
theorem decodeList_cons_ok {cmd : Byte} {tail rest : List Byte} {i : Instr}
    (h : decodeList (cmd :: tail) = .ok (i, rest)) :
    decode cmd (tail.getD 0 0) (tail.getD 1 0) = .ok i ∧ operandCount cmd ≤ tail.length ∧
      rest = tail.drop (operandCount cmd) := by
  simp only [decodeList, decodeListWith] at h
  split at h
  · cases h
  · next hd =>
    split at h
    · cases h
    · next hlen =>
      cases h
      exact ⟨hd, Nat.not_lt.1 hlen, rfl⟩

/-- Settles O5: the operand bytes of the decoded instruction are the bytes after the opcode byte. -/
theorem encodeOfDecodeIsTheBytes : Obligations.EncodeOfDecodeIsTheBytes := by
  intro bytes rest i h
  cases bytes with
  | nil => cases h
  | cons cmd tail =>
    obtain ⟨hd, hlen, rfl⟩ := decodeList_cons_ok h
    obtain ⟨rfl, hops⟩ := decode_ok_iff.1 hd
    rw [operandCount_opcode] at hlen ⊢
    obtain ⟨l, rfl⟩ := prefix_of_prefix_getD_getD hops hlen
    rw [List.drop_left]
    rfl

/-- Settles O1: ten literal words. -/
theorem decodesWordsWrittenFromTheSpec : Obligations.DecodesWordsWrittenFromTheSpec := by
  unfold Obligations.DecodesWordsWrittenFromTheSpec
  decide

/-! ### the opcode byte's fields -/

/-- A bit of a byte as a number. -/
theorem toNat_getLsbD (cmd : Byte) (k : Nat) : (cmd.getLsbD k).toNat = cmd.toNat / 2 ^ k % 2 :=
  Nat.toNat_testBit cmd.toNat k

theorem operandCount_eq_div (cmd : Byte) : operandCount cmd = cmd.toNat / 2 ^ 6 := by
  rw [operandCount, BitVec.toNat_ushiftRight, Nat.shiftRight_eq_div_pow]

theorem toNat_identifier (cmd : Byte) : (identifier cmd).toNat = cmd.toNat % 2 ^ 4 :=
  BitVec.extractLsb'_toNat 0 4 cmd

/-- Settles O2: the fields are the base-2 digits of the byte, in groups of 2, 1, 1 and 4. -/
theorem opcodeByteIsItsFourFields : Obligations.OpcodeByteIsItsFourFields := by
  intro cmd
  rw [operandCount_eq_div, isAlu, toNat_getLsbD, setsPc, toNat_getLsbD, toNat_identifier]
  omega

/-- The decoder looks at no byte past the operands the opcode byte asks for (40_cycle.md R80). -/
theorem decode_congr {cmd a b a' b' : Byte}
    (h : [a, b].take (operandCount cmd) = [a', b'].take (operandCount cmd)) : decode cmd a b = decode cmd a' b' := by
  cases hd : decode cmd a b with
  | ok i =>
    obtain ⟨rfl, hops⟩ := decode_ok_iff.1 hd
    rw [operandCount_opcode, ← List.prefix_iff_eq_take.1 hops] at h
    exact (decode_ok_iff.2 ⟨rfl, List.prefix_iff_eq_take.2 h⟩).symm
  | error e =>
    obtain ⟨rfl, hcmd⟩ := decodeWith_error hd
    cases hd' : decode cmd a' b' with
    | ok j => exact absurd (mem_opcodes_of_decode hd') hcmd
    | error e' => rw [(decodeWith_error hd').1]

/-- Settles O7: of the two bytes offered, as many are looked at as field N says. -/
theorem unusedOperandBytesAreIgnored : Obligations.UnusedOperandBytesAreIgnored := by
  refine fun cmd a b a' b' => ⟨fun hnone => decode_congr ?_, fun hone => decode_congr ?_⟩
  · rw [hnone, List.take_zero, List.take_zero]
  · rw [hone]
    rfl

end Sys2Proof.Proofs
end

section
/-! The step (40_cycle.md): all that an instruction can do, said once; that a step answers a next state; the `pc` after
it; and the induction over a run. -/

namespace Sys2Proof.Proofs

open Sys2Proof.Machine Sys2Proof.Safety

/-! ### what an instruction does -/

/-- From `s`, instruction `i` makes the state `t`: one rule per instruction, for operands that name registers, and one
for every RegisterFault, whose operand byte does not depend on the state. -/
inductive Effect (s : State) : Instr → State → Prop
  | registerFault {i : Instr} {v : Byte} (hwf : i.wf = false) (hmem : v ∈ i.operands) (hbad : namesReg v = false)
      (hx : ∀ u, exec i u = .next (u.enterFault ⟨.registerFault, v⟩)) :
      Effect s i (s.enterFault ⟨.registerFault, v⟩)
  | hlt : Effect s .hlt (s.setRun .halted)
  | prn (r : RegIx) : Effect s (.prn (regByte r)) (s.emit (s.reg r))
  | ldi (r : RegIx) (imm : Byte) : Effect s (.ldi (regByte r) imm) (s.setReg r imm)
  | add (a b : RegIx) : Effect s (.add (regByte a) (regByte b)) (s.setReg a (s.reg a + s.reg b))
  | mul (a b : RegIx) : Effect s (.mul (regByte a) (regByte b)) (s.setReg a (s.reg a * s.reg b))
  | push (r : RegIx) : Effect s (.push (regByte r)) (s.decSp.writeTop (s.decSp.reg r))
  | pop (r : RegIx) : Effect s (.pop (regByte r)) (s.setReg r s.readTop).incSp
  | call (r : RegIx) : Effect s (.call (regByte r)) ((s.decSp.writeTop (s.pc + 2)).setPc (s.decSp.reg r))
  | ret : Effect s .ret (s.incSp.setPc s.readTop)

/-- A handler that answers a known state is read off its law. -/
theorem effect_of_eq {i : Instr} {s t u : State} (hx : exec i s = .next u) (he : Effect s i u)
    (h : exec i s = .next t) : Effect s i t := by
  cases hx.symm.trans h
  exact he

/-- The rules cover every answer of every handler. -/
theorem effect_of_exec {i : Instr} {s t : State} (h : exec i s = .next t) : Effect s i t := by
  cases hw : i.wf with
  | false =>
    obtain ⟨v, hv, hbad, hx⟩ := exec_of_not_wf hw
    exact effect_of_eq (hx s) (.registerFault hw hv hbad hx) h
  | true =>
    obtain rfl | ⟨r, rfl⟩ | ⟨r, imm, rfl⟩ | ⟨a, b, rfl⟩ | ⟨a, b, rfl⟩ | ⟨r, rfl⟩ | ⟨r, rfl⟩ | ⟨r, rfl⟩ | rfl :=
      wf_cases hw
    · exact effect_of_eq (exec_hlt s) .hlt h
    · exact effect_of_eq (exec_prn r s) (.prn r) h
    · exact effect_of_eq (exec_ldi r imm s) (.ldi r imm) h
    · exact effect_of_eq (exec_add a b s) (.add a b) h
    · exact effect_of_eq (exec_mul a b s) (.mul a b) h
    · exact effect_of_eq (exec_push r s) (.push r) h
    · exact effect_of_eq (exec_pop r s) (.pop r) h
    · exact effect_of_eq (exec_call r s) (.call r) h
    · exact effect_of_eq (exec_ret s) .ret h

/-- The control registers after an instruction: a RegisterFault, the HALT, or as they were. -/
theorem exec_status {i : Instr} {s t : State} (h : exec i s = .next t) :
    (i.wf = false ∧ ∃ v ∈ i.operands, namesReg v = false ∧ t = s.enterFault ⟨.registerFault, v⟩) ∨
    (i = .hlt ∧ t = s.setRun .halted) ∨ (i.wf = true ∧ StatusSame s t) := by
  cases effect_of_exec h with
  | registerFault hwf hmem hbad => exact .inl ⟨hwf, _, hmem, hbad, rfl⟩
  | hlt => exact .inr (.inl ⟨rfl, rfl⟩)
  | prn r | ldi r | push r | pop r | call r => exact .inr (.inr ⟨namesReg_regByte r, rfl, rfl, rfl⟩)
  | add a b | mul a b => exact .inr (.inr ⟨by simp [Instr.wf, namesReg_regByte], rfl, rfl, rfl⟩)
  | ret => exact .inr (.inr ⟨rfl, rfl, rfl, rfl⟩)

/-! ### a next state, always -/

/-- Settles O11: a rejected opcode, a handler and a step not taken all answer a next state. -/
theorem everyStepAnswersANextState : Obligations.EveryStepAnswersANextState := by
  intro s
  by_cases hr : s.run = .running
  · cases hd : decode (fetch s).cmd (fetch s).opA (fetch s).opB with
    | error e => exact ⟨_, step_of_invalid hr hd⟩
    | ok i =>
      obtain ⟨t, hx⟩ := exec_eq_next i s
      exact ⟨_, step_of_decode hr hd hx⟩
  · exact ⟨s, step_of_not_running hr⟩

/-- One step of a run, then the others. -/
theorem run_succ {M : Host.Core} {s t : M.State} (h : M.step s = .next t) (n : Nat) : M.run (n + 1) s = M.run n t := by
  simp only [Host.Core.run, h]

/-- What every step keeps holds after every number of steps. -/
theorem run_induction {P : State → Prop} (hstep : ∀ s t, P s → step s = .next t → P t) (n : Nat) {s : State}
    (h : P s) : ∃ t, Sys2Proof.core.run n s = .next t ∧ P t := by
  induction n generalizing s with
  | zero => exact ⟨s, rfl, h⟩
  | succ n ih =>
    obtain ⟨t, ht⟩ := everyStepAnswersANextState s
    obtain ⟨u, hu, hPu⟩ := ih (hstep s t h ht)
    exact ⟨u, (run_succ (M := Sys2Proof.core) ht n).trans hu, hPu⟩

/-- Settles O12: being the state `s` is kept by every step. -/
theorem endedMachineNeverChanges : Obligations.EndedMachineNeverChanges := by
  intro s n hended
  have hstep : step s = .next s := step_of_not_running hended
  obtain ⟨t, hrun, rfl⟩ := run_induction (P := (· = s))
    (fun _ _ hu h => by cases hu; cases hstep.symm.trans h; rfl) n rfl
  exact ⟨hstep, hrun⟩

/-! ### the pc -/

theorem encode_length (i : Instr) : (encode i).length = lengthOf i.opcode := by
  rw [lengthOf, operandCount_opcode, Nat.add_comm]
  rfl

/-- Bit C of the opcode byte is set for CALL and RET only (R61 (c)). -/
theorem setsPc_opcode_eq_false_iff (i : Instr) : setsPc i.opcode = false ↔ i ≠ .ret ∧ ∀ b, i ≠ .call b := by
  cases i <;> simp [Instr.opcode, Instr.opcodeWith, opcodes, setsPc]

/-- The pc update after instruction `i`: past its encoding, unless the run ended or `i` set `pc` itself. -/
theorem pcUpdate_opcode (i : Instr) (t : State) :
    pcUpdate i.opcode t =
      if t.run = .running ∧ i ≠ .ret ∧ ∀ b, i ≠ .call b then t.setPc (t.pc + BitVec.ofNat 8 (encode i).length)
      else t := by
  simp only [pcUpdate, setsPc_opcode_eq_false_iff, encode_length, addrAdd_eq]

/-- The three fetched bytes by their offset from `pc` (40_cycle.md R72). -/
theorem fetch_getElem? (s : State) {k : Nat} (h : k < 3) :
    [(fetch s).cmd, (fetch s).opA, (fetch s).opB][k]? = some (s.memRead (s.pc + BitVec.ofNat 8 k)) := by
  match k with
  | 0 => rw [BitVec.add_zero]; rfl
  | 1 => rfl
  | 2 => rfl

/-- The fetch finds an instruction whose bytes stand at `pc`. -/
theorem decode_fetch_of_encode {s : State} {i : Instr}
    (h : ∀ k (hk : k < (encode i).length), s.memRead (s.pc + BitVec.ofNat 8 k) = (encode i)[k]) :
    decode (fetch s).cmd (fetch s).opA (fetch s).opB = .ok i := by
  have hlen : (encode i).length ≤ 3 := Nat.succ_le_succ (operands_length_le_two i)
  have hpre : encode i <+: [(fetch s).cmd, (fetch s).opA, (fetch s).opB] :=
    List.prefix_iff_getElem?.2 fun k hk => by rw [fetch_getElem? s (hk.trans_le hlen), h k hk]
  exact decode_ok_iff.2 (List.cons_prefix_cons.1 hpre)

/-- Settles O10: the bytes at `pc` decode to `i`, and the pc update goes by its opcode byte. -/
theorem encodedBytesAtPcRunTheirInstruction : Obligations.EncodedBytesAtPcRunTheirInstruction := by
  intro s i hr hbytes
  have hd := decode_fetch_of_encode hbytes
  obtain ⟨t, hx⟩ := exec_eq_next i s
  rw [step_of_decode hr hd hx, hx, ← (decode_ok_iff.1 hd).1, pcUpdate_opcode]
  rfl

/-- An instruction that ends the run leaves `pc` alone (40_cycle.md R76, 60_exceptions.md R139). -/
theorem exec_pc_of_ended {i : Instr} {s t : State} (hr : s.run = .running) (h : exec i s = .next t) (ht : Ended t) :
    t.pc = s.pc := by
  obtain ⟨-, v, -, -, rfl⟩ | ⟨-, rfl⟩ | ⟨-, hrun, -⟩ := exec_status h
  · rfl
  · rfl
  · exact absurd (hrun.trans hr) ht

/-- A run that goes on moves `pc` past every instruction but CALL and RET. -/
theorem pcUpdate_opcode_pc {i : Instr} {t : State} (ht : t.run = .running) (hi : i ≠ .ret ∧ ∀ b, i ≠ .call b) :
    (pcUpdate i.opcode t).pc = t.pc + BitVec.ofNat 8 (encode i).length := by
  rw [pcUpdate_opcode, if_pos ⟨ht, hi⟩, State.setPc_pc]

/-- CALL and RET keep the `pc` they set. -/
theorem pcUpdate_of_setsPc {cmd : Byte} (t : State) (h : setsPc cmd = true) : pcUpdate cmd t = t := by
  simp [pcUpdate, h]

/-- Settles O13: a run that goes on is no fault and no HLT; each other instruction moves `pc` past itself or sets it. -/
theorem pcAfterEachKindOfStep : Obligations.PcAfterEachKindOfStep := by
  intro s t i hr hd h
  obtain ⟨u, hx⟩ := exec_eq_next i s
  rw [step_of_decode hr hd hx, ← (decode_ok_iff.1 hd).1] at h
  cases h
  rw [pcUpdate_run]
  refine ⟨fun hu => ?ended, fun hu => ?running⟩
  case ended => rw [pcUpdate_of_not_running _ hu, exec_pc_of_ended hr hx hu]
  case running =>
    cases effect_of_exec hx with
    | registerFault | hlt => cases hu
    | prn | ldi | add | mul | push | pop => exact pcUpdate_opcode_pc hu (by simp)
    | call r =>
      have hpc := pcUpdate_of_setsPc ((s.decSp.writeTop (s.pc + 2)).setPc (s.decSp.reg r))
        (by decide : setsPc opcodes.call = true)
      exact ⟨r, rfl, (congrArg State.pc hpc).trans (s.decSp_reg r)⟩
    | ret => exact congrArg State.pc (pcUpdate_of_setsPc (s.incSp.setPc s.readTop) (by decide))

/-- Settles O8: an address is the sum modulo 256, in numbers. -/
theorem fetchReadsThreeBytesFromPc : Obligations.FetchReadsThreeBytesFromPc := by
  intro s
  exact ⟨rfl, congrArg (Memory.get s.mem) (word_toNat_add s.pc 1), congrArg (Memory.get s.mem) (word_toNat_add s.pc 2)⟩

/-- Settles O14: the handler's one write, and no pc update once the run has ended. -/
theorem hltHaltsAndKeepsPc : Obligations.HltHaltsAndKeepsPc := by
  refine fun s => ⟨exec_hlt s, fun hr hcmd => ?_⟩
  have hd : decode (fetch s).cmd (fetch s).opA (fetch s).opB = .ok .hlt :=
    decode_ok_iff.2 ⟨hcmd.symm, List.nil_prefix⟩
  rw [step_of_decode hr hd (exec_hlt s), pcUpdate_of_not_running _ (by simp)]
  rfl

end Sys2Proof.Proofs
end

section
/-! The stack (43_stack.md): PUSH, POP and CALL, and a pushed byte read back by a POP or by the next fetch. -/

namespace Sys2Proof.Proofs

open Sys2Proof.Machine Sys2Proof.Safety

/-! ### the shared push -/

/-- The pre-decrement writes `x[7]` only. -/
theorem decSp_reg_of_ne (s : State) {q : RegIx} (h : q ≠ 7) : s.decSp.reg q = s.reg q :=
  s.reg_setReg_of_ne h _

/-- A push, by PUSH or CALL, is one memory write below the old stack pointer. -/
theorem decSp_writeTop_mem (s : State) (v : Byte) : (s.decSp.writeTop v).mem = (s.memWrite (s.sp - 1) v).mem := by
  rw [State.writeTop_mem, State.decSp_sp, State.decSp_mem, State.memWrite_mem]

/-- A push changes no other byte. -/
theorem memExcept_decSp_writeTop {s : State} (h : Memory.wf s.mem) (v : Byte) :
    MemExcept (s.sp - 1) s (s.decSp.writeTop v) := by
  intro a ha
  rw [State.memRead, decSp_writeTop_mem]
  exact memExcept_memWrite h _ v a ha

/-- A push changes no register but `x[7]`. -/
theorem regsExcept_decSp (s : State) : RegsExcept [7] s s.decSp :=
  fun _ hq => decSp_reg_of_ne s (List.ne_of_not_mem_cons hq)

/-! ### PUSH, POP, CALL -/

/-- PUSH as a step: the pushed value, and `pc` past its two bytes (43_stack.md R110). -/
theorem step_push {s : State} {r : RegIx} (hs : s.run = .running) (hcmd : (fetch s).cmd = 0x45)
    (hopA : (fetch s).opA = regByte r) : step s = .next ((s.decSp.writeTop (s.decSp.reg r)).setPc (s.pc + 2)) := by
  have hf : fetch s = ⟨0x45, regByte r, (fetch s).opB⟩ := by rw [← hcmd, ← hopA]
  exact step_of_decode_advance hf rfl (exec_push r s) hs hs (by decide)

/-- The byte PUSH r leaves below the old stack pointer (43_stack.md R110). -/
theorem memRead_push {s : State} (h : Memory.wf s.mem) (r : RegIx) :
    (s.decSp.writeTop (s.decSp.reg r)).memRead (s.sp - 1) = if r = 7 then s.sp - 1 else s.reg r :=
  (memRead_decSp_writeTop h _).trans (s.decSp_reg r)

/-- Settles O19: a push of `x[r]` as it is after the decrement; any other operand raises RegisterFault. -/
theorem pushStoresBelowTheStackPointer : Obligations.PushStoresBelowTheStackPointer := by
  intro s
  constructor
  · intro r hwf
    exact ⟨s.decSp.writeTop (s.decSp.reg r), exec_push r s, s.decSp_sp, memRead_push hwf r,
      memExcept_decSp_writeTop hwf _, regsExcept_decSp s, ⟨rfl, rfl, rfl⟩, rfl, rfl, step_push⟩
  · intro b hb
    exact withReg_registerFaulted hb s _

/-- POP as a step: the popped value, and `pc` past its two bytes (43_stack.md R111). -/
theorem step_pop {s : State} {r : RegIx} (hs : s.run = .running) (hcmd : (fetch s).cmd = 0x46)
    (hopA : (fetch s).opA = regByte r) : step s = .next ((s.setReg r s.readTop).incSp.setPc (s.pc + 2)) := by
  have hf : fetch s = ⟨0x46, regByte r, (fetch s).opB⟩ := by rw [← hcmd, ← hopA]
  exact step_of_decode_advance hf rfl (exec_pop r s) hs hs (by decide)

/-- POP r for another register than the stack pointer loads it and increments `x[7]`. -/
theorem pop_of_ne (s : State) {r : RegIx} (h : r ≠ 7) :
    (s.setReg r s.readTop).incSp.reg r = s.readTop ∧ (s.setReg r s.readTop).incSp.sp = s.sp + 1 := by
  constructor
  · rw [incSp_reg_of_ne _ h, State.reg_setReg_self]
  · rw [State.incSp_sp, State.sp, State.reg_setReg_of_ne s (Ne.symm h)]
    rfl

/-- POP r7 increments the value it loaded. -/
theorem pop_sp (s : State) : (s.setReg 7 s.readTop).incSp.sp = s.readTop + 1 := by
  rw [State.incSp_sp, State.sp, State.reg_setReg_self]

/-- POP r changes no register but `x[r]` and `x[7]`. -/
theorem regsExcept_pop (s : State) (r : RegIx) : RegsExcept [r, 7] s (s.setReg r s.readTop).incSp := by
  intro q hq
  obtain ⟨hr, h7⟩ : q ≠ r ∧ q ≠ 7 := by simpa using hq
  rw [incSp_reg_of_ne _ h7, State.reg_setReg_of_ne s hr]

/-- Settles O20: the load, then the increment of `x[7]` as the load left it; any other operand raises RegisterFault. -/
theorem popLoadsFromTheStackPointer : Obligations.PopLoadsFromTheStackPointer := by
  intro s
  constructor
  · intro r
    exact ⟨(s.setReg r s.readTop).incSp, exec_pop r s, pop_of_ne s, fun h7 => h7 ▸ pop_sp s, regsExcept_pop s r,
      fun _ => rfl, ⟨rfl, rfl, rfl⟩, rfl, rfl, step_pop⟩
  · intro b hb
    exact withReg_registerFaulted hb s _

/-- Settles O21: a push of the return address, then the jump to `x[r]` as it is after the decrement; any other operand
raises RegisterFault. -/
theorem callPushesTheReturnAddressAndJumps : Obligations.CallPushesTheReturnAddressAndJumps := by
  intro s
  constructor
  · intro r hwf
    exact ⟨(s.decSp.writeTop (s.pc + 2)).setPc (s.decSp.reg r), exec_call r s, s.decSp_reg r, s.decSp_sp,
      memRead_decSp_writeTop hwf _, memExcept_decSp_writeTop hwf (s.pc + 2), regsExcept_decSp s,
      ⟨rfl, rfl, rfl⟩, rfl, step_call⟩
  · intro b hb
    exact withReg_registerFaulted hb s _

/-! ### a pushed byte read back -/

/-- POP r with the stack pointer and the byte that PUSH r left restores `x[7]` and `x[r]`, for `r = 7` too
(43_stack.md R113). -/
theorem pop_restores {s u : State} {r : RegIx} (hsp : u.sp = s.sp - 1)
    (htop : u.readTop = if r = 7 then s.sp - 1 else s.reg r) :
    (u.setReg r u.readTop).incSp.reg r = s.reg r ∧ (u.setReg r u.readTop).incSp.sp = s.sp := by
  by_cases h7 : r = 7
  · subst h7
    have hpop : (u.setReg 7 u.readTop).incSp.sp = s.sp := by rw [pop_sp, htop, if_pos rfl, word_sub_add_cancel]
    exact ⟨hpop, hpop⟩
  · obtain ⟨hreg, hinc⟩ := pop_of_ne u h7
    rw [hreg, hinc, htop, if_neg h7, hsp, word_sub_add_cancel]
    exact ⟨rfl, rfl⟩

/-- With the other registers left alone in between, POP r restores them all. -/
theorem regsExcept_pop_restores {s u : State} {r : RegIx} (hregs : RegsExcept [7] s u) (hsp : u.sp = s.sp - 1)
    (htop : u.readTop = if r = 7 then s.sp - 1 else s.reg r) : RegsExcept [] s (u.setReg r u.readTop).incSp := by
  obtain ⟨hreg, hsp'⟩ := pop_restores hsp htop
  intro q _
  by_cases hr : q = r
  · rw [hr, hreg]
  · by_cases h7 : q = 7
    · rw [h7]; exact hsp'
    · rw [regsExcept_pop u r q (by simp [hr, h7]), hregs q (by simp [h7])]

/-- Settles O23: the pushed byte stands where the POP loads from, whether the POP is the next instruction, which the
push did not overwrite, or one reached later. -/
theorem pushThenPopRestores : Obligations.PushThenPopRestores := by
  intro s r hwf hs hcmd hopA
  have hpush := step_push hs hcmd hopA
  set t := (s.decSp.writeTop (s.decSp.reg r)).setPc (s.pc + 2)
  have hsp : t.sp = s.sp - 1 := s.decSp_sp
  have htop : t.memRead (s.sp - 1) = if r = 7 then s.sp - 1 else s.reg r := memRead_push hwf r
  have hmem : MemExcept (s.sp - 1) s t := memExcept_decSp_writeTop hwf _
  constructor
  · intro hpop hpopA hne hneA
    have hcmd' : (fetch t).cmd = 0x46 := (hmem _ hne.symm).trans hpop
    have hopA' : (fetch t).opA = regByte r := by
      have haddr : t.pc + 1 = s.pc + 3 := word_add_add s.pc 2 1
      rw [fetch, addrAdd_eq, haddr, hmem _ hneA.symm, hpopA]
    exact ⟨t, _, hpush, step_pop hs hcmd' hopA', word_add_add s.pc 2 2,
      regsExcept_pop_restores (regsExcept_decSp s) hsp (hsp ▸ htop), hmem, htop, ⟨rfl, rfl, rfl⟩, rfl⟩
  · refine ⟨t, hpush, fun u hu hpop hpopA husp hutop => ?_⟩
    have hutop' : u.readTop = if r = 7 then s.sp - 1 else s.reg r := by
      rw [State.readTop, husp, hutop, hsp, htop]
    exact ⟨_, step_pop hu hpop hpopA, pop_restores (husp.trans hsp) hutop'⟩

/-- Settles O25: PUSH leaves `pc` 2 further and `x[r]` below the old stack pointer, where the fetch reads it if that is
one of its three addresses. -/
theorem pushedByteIsSeenByTheNextFetch : Obligations.PushedByteIsSeenByTheNextFetch := by
  intro s r hwf hs hcmd hopA h7
  refine ⟨_, step_push hs hcmd hopA, ?_⟩
  set t := (s.decSp.writeTop (s.decSp.reg r)).setPc (s.pc + 2)
  have htop : t.memRead (s.sp - 1) = s.reg r := (memRead_push hwf r).trans (if_neg h7)
  have hpc1 : t.pc + 1 = s.pc + 3 := word_add_add s.pc 2 1
  have hpc2 : t.pc + 2 = s.pc + 4 := word_add_add s.pc 2 2
  refine ⟨fun h => ?cmd, fun h => ?opA, fun h => ?opB⟩
  case cmd => rw [← htop, h]; rfl
  case opA => rw [fetch, addrAdd_eq, hpc1, ← h, htop]
  case opB => rw [fetch, addrAdd_eq, addrAdd_eq, hpc2, ← h, htop]

end Sys2Proof.Proofs
end

section
/-! The faults (60_exceptions.md): when a step raises one, and that it changes the control registers only. -/

namespace Sys2Proof.Proofs

open Sys2Proof.Machine Sys2Proof.Safety

/-- Settles O26: a byte that is none of the nine opcode values is rejected. -/
theorem unknownOpcodeRaisesInvalidInstruction : Obligations.UnknownOpcodeRaisesInvalidInstruction := by
  refine ⟨rfl, fun s hr hcmd => ?_⟩
  cases hd : decode (fetch s).cmd (fetch s).opA (fetch s).opB with
  | ok i => exact absurd (mem_opcodes_of_decode hd) hcmd
  | error e => exact step_of_invalid hr hd

/-- Everything but HLT and RET begins by taking its first operand byte for a register (60_exceptions.md R133). -/
theorem exec_eq_withReg {cmd : Byte} (h : cmd ∈ ([0x47, 0x82, 0xA0, 0xA2, 0x45, 0x46, 0x50] : List Byte)) (u v : Byte) :
    ∃ i, decode cmd u v = .ok i ∧ ∀ s, ∃ k, exec i s = withReg u s k := by
  simp only [List.mem_cons, List.not_mem_nil, or_false] at h
  obtain rfl | rfl | rfl | rfl | rfl | rfl | rfl := h
  · exact ⟨.prn u, rfl, fun _ => ⟨_, rfl⟩⟩
  · exact ⟨.ldi u v, rfl, fun _ => ⟨_, rfl⟩⟩
  · exact ⟨.add u v, rfl, fun _ => ⟨_, rfl⟩⟩
  · exact ⟨.mul u v, rfl, fun _ => ⟨_, rfl⟩⟩
  · exact ⟨.push u, rfl, fun _ => ⟨_, rfl⟩⟩
  · exact ⟨.pop u, rfl, fun _ => ⟨_, rfl⟩⟩
  · exact ⟨.call u, rfl, fun _ => ⟨_, rfl⟩⟩

/-- ADD and MUL take their second operand byte for a register next (60_exceptions.md R133). -/
theorem exec_eq_withReg_withReg {cmd : Byte} (h : cmd ∈ ([0xA0, 0xA2] : List Byte)) (u v : Byte) :
    ∃ i, decode cmd u v = .ok i ∧ ∀ s, ∃ k : RegIx → RegIx → Result,
      exec i s = withReg u s fun a => withReg v s (k a) := by
  simp only [List.mem_cons, List.not_mem_nil, or_false] at h
  obtain rfl | rfl := h
  · exact ⟨.add u v, rfl, fun _ => ⟨_, rfl⟩⟩
  · exact ⟨.mul u v, rfl, fun _ => ⟨_, rfl⟩⟩

/-- A handler's RegisterFault is the step's: the run has ended, so `pc` stays. -/
theorem step_registerFaulted {s : State} {i : Instr} {v : Byte} (hr : s.run = .running)
    (hd : decode (fetch s).cmd (fetch s).opA (fetch s).opB = .ok i)
    (hx : ∃ t, exec i s = .next t ∧ RegisterFaulted v s t) : ∃ t, step s = .next t ∧ RegisterFaulted v s t := by
  obtain ⟨t, hx, rfl⟩ := hx
  exact ⟨_, step_of_decode hr hd hx, pcUpdate_of_not_running _ (by simp)⟩

/-- Settles O27: the operand checks of the handlers, in their order. -/
theorem badRegisterOperandRaisesRegisterFault : Obligations.BadRegisterOperandRaisesRegisterFault := by
  refine ⟨rfl, fun s hr => ⟨fun hcmd hbad => ?first, fun hcmd hgood hbad => ?second⟩⟩
  case first =>
    obtain ⟨i, hd, hx⟩ := exec_eq_withReg hcmd (fetch s).opA (fetch s).opB
    obtain ⟨k, hx⟩ := hx s
    exact step_registerFaulted hr hd (hx ▸ withReg_registerFaulted hbad s k)
  case second =>
    obtain ⟨i, hd, hx⟩ := exec_eq_withReg_withReg hcmd (fetch s).opA (fetch s).opB
    obtain ⟨k, hx⟩ := hx s
    exact step_registerFaulted hr hd (hx ▸ withReg_withReg_registerFaulted hgood hbad s k)

/-- Settles O28: of the three outcomes of a handler, RegisterFault is the one of instructions that are not well
formed. -/
theorem handlerFaultsExactlyOnBadRegisterOperand : Obligations.HandlerFaultsExactlyOnBadRegisterOperand := by
  intro i s t hr h
  obtain ⟨hw, v, -, -, rfl⟩ | ⟨rfl, rfl⟩ | ⟨hw, hrun, -⟩ := exec_status h
  · exact iff_of_true rfl hw
  · exact iff_of_false (by simp) (by decide)
  · exact iff_of_false (by simp [hrun, hr]) (by simp [hw])

/-- The three ways a running machine's step ends: a fault with its cause, the HALT, or still running with the control
registers as they were. -/
theorem step_status {s t : State} (hr : s.run = .running) (h : step s = .next t) :
    (∃ f, (f.cause = .invalidInstruction ∨ f.cause = .registerFault) ∧ t = s.enterFault f) ∨
    ((fetch s).cmd = opcodes.hlt ∧ t = s.setRun .halted) ∨ StatusSame s t := by
  obtain ⟨hended, -⟩ | ⟨-, -, rfl⟩ | ⟨-, i, u, hd, hx, rfl⟩ := step_cases h
  · exact absurd hr hended
  · exact .inl ⟨_, .inl rfl, rfl⟩
  · obtain ⟨-, v, -, -, rfl⟩ | ⟨rfl, rfl⟩ | ⟨-, hsame⟩ := exec_status hx
    · exact .inl ⟨_, .inr rfl, pcUpdate_of_not_running _ (by simp)⟩
    · exact .inr (.inl ⟨(decode_ok_iff.1 hd).1.symm, pcUpdate_of_not_running _ (by simp)⟩)
    · exact .inr (.inr (by simpa [StatusSame] using hsame))

/-- Settles O29: of the three ways a step ends only fault entry is FAULTED. -/
theorem faultEntryChangesOnlyTheStatus : Obligations.FaultEntryChangesOnlyTheStatus := by
  intro s t hr h hfaulted
  obtain ⟨f, -, rfl⟩ | ⟨-, rfl⟩ | ⟨hrun, -⟩ := step_status hr h
  · rfl
  · cases hfaulted
  · cases hr.symm.trans (hrun.symm.trans hfaulted)

/-- Settles O34: of the three ways a step ends two are not RUNNING. -/
theorem runEndsOnlyByHltOrFault : Obligations.RunEndsOnlyByHltOrFault := by
  intro s t hr h hended
  obtain ⟨f, hcause, rfl⟩ | ⟨hcmd, rfl⟩ | ⟨hrun, -⟩ := step_status hr h
  · exact .inr ⟨rfl, hcause⟩
  · exact .inl ⟨hcmd, rfl⟩
  · exact absurd (hrun.trans hr) hended

end Sys2Proof.Proofs
end

section
/-! Frames of the whole machine: what of memory, the registers and the output stream an instruction may change
(10_state.md R12, R21; 20_memory.md R37). -/

namespace Sys2Proof.Proofs

open Sys2Proof.Machine Sys2Proof.Safety

/-- An instruction leaves memory alone, or it is PUSH or CALL and writes the byte below the stack pointer
(20_memory.md R37). -/
theorem exec_mem {i : Instr} {s t : State} (h : exec i s = .next t) :
    t.mem = s.mem ∨ ((i.opcode = 0x45 ∨ i.opcode = 0x50) ∧ ∃ v, t.mem = (s.memWrite (s.sp - 1) v).mem) := by
  cases effect_of_exec h with
  | push r => exact .inr ⟨.inl rfl, _, decSp_writeTop_mem s _⟩
  | call r => exact .inr ⟨.inr rfl, _, decSp_writeTop_mem s _⟩
  | registerFault | hlt | prn | ldi | add | mul | pop | ret => exact .inl rfl

/-- A step leaves memory alone, or it runs PUSH or CALL and writes the byte below the stack pointer. -/
theorem step_mem {s t : State} (h : step s = .next t) :
    t.mem = s.mem ∨ (s.run = .running ∧ ((fetch s).cmd = 0x45 ∨ (fetch s).cmd = 0x50) ∧
      ∃ v, t.mem = (s.memWrite (s.sp - 1) v).mem) := by
  obtain ⟨-, rfl⟩ | ⟨-, -, rfl⟩ | ⟨hr, i, u, hd, hx, rfl⟩ := step_cases h
  · exact .inl rfl
  · exact .inl rfl
  · rw [pcUpdate_mem, ← (decode_ok_iff.1 hd).1]
    exact (exec_mem hx).imp_right fun hwrite => ⟨hr, hwrite⟩

/-- Settles O31: an address that reads differently is the one written. -/
theorem onlyPushAndCallWriteMemory : Obligations.OnlyPushAndCallWriteMemory := by
  intro s t hwf h a hne
  obtain hmem | ⟨hr, hcmd, v, hmem⟩ := step_mem h
  · exact absurd (congrArg (Memory.get · a.toNat) hmem) hne
  · refine ⟨hr, hcmd, by_contra fun ha => hne ?_⟩
    calc t.memRead a
      _ = (s.memWrite (s.sp - 1) v).memRead a := congrArg (Memory.get · a.toNat) hmem
      _ = s.memRead a := memExcept_memWrite hwf _ v a ha

/-- A register that a register write changed is the one written. -/
theorem eq_of_setReg_reg_ne {s : State} {q r : RegIx} {v : RegWord} (h : (s.setReg q v).reg r ≠ s.reg r) : q = r :=
  by_contra fun hne => h (s.reg_setReg_of_ne (Ne.symm hne) v)

/-- Settles O32: the registers each handler's law writes; PUSH, POP, CALL and RET move the stack pointer. -/
theorem instructionsWriteOnlyTheirRegisters : Obligations.InstructionsWriteOnlyTheirRegisters := by
  intro i s t r h hne
  cases effect_of_exec h with
  | registerFault => exact absurd rfl hne
  | hlt | prn => exact hne rfl
  | ldi | add | mul => exact congrArg regByte (eq_of_setReg_reg_ne hne)
  | push | call => exact by_contra fun h7 => hne (decSp_reg_of_ne s h7)
  | ret => exact by_contra fun h7 => hne (incSp_reg_of_ne s h7)
  | pop =>
    by_cases h7 : r = 7
    · exact .inr h7
    · rw [incSp_reg_of_ne _ h7] at hne
      exact .inl (congrArg regByte (eq_of_setReg_reg_ne hne))

/-- From `s`, `f` answers `t` with `e` appended to the output stream, and does the same over every other stream
(10_state.md R21). -/
def Emits (f : State → Result) (s t : State) (e : List Byte) : Prop :=
  t.out = s.out ++ e ∧ ∀ o : List Byte, f { s with out := o } = .next { t with out := o ++ e }

theorem emits_nil {f : State → Result} {s t : State} (hout : t.out = s.out)
    (hf : ∀ o : List Byte, f { s with out := o } = .next { t with out := o }) : Emits f s t [] := by
  refine ⟨by rw [hout, List.append_nil], fun o => ?_⟩
  rw [hf, List.append_nil]

/-- An instruction emits nothing, or it is PRN and emits its register. -/
theorem exec_emits {i : Instr} {s t : State} (h : exec i s = .next t) :
    Emits (exec i) s t [] ∨ ∃ r, i = .prn (regByte r) ∧ Emits (exec i) s t [s.reg r] := by
  cases effect_of_exec h with
  | registerFault _ _ _ hx => exact .inl (emits_nil rfl fun _ => hx _)
  | hlt => exact .inl (emits_nil rfl fun _ => exec_hlt _)
  | prn r => exact .inr ⟨r, rfl, rfl, fun _ => exec_prn r _⟩
  | ldi r imm => exact .inl (emits_nil rfl fun _ => exec_ldi r imm _)
  | add a b => exact .inl (emits_nil rfl fun _ => exec_add a b _)
  | mul a b => exact .inl (emits_nil rfl fun _ => exec_mul a b _)
  | push r => exact .inl (emits_nil rfl fun _ => exec_push r _)
  | pop r => exact .inl (emits_nil rfl fun _ => exec_pop r _)
  | call r => exact .inl (emits_nil rfl fun _ => exec_call r _)
  | ret => exact .inl (emits_nil rfl fun _ => exec_ret _)

/-- The pc update does not look at the output stream. -/
theorem pcUpdate_withOut (cmd : Byte) (t : State) (o : List Byte) :
    pcUpdate cmd { t with out := o } = { pcUpdate cmd t with out := o } := by
  simp only [pcUpdate]
  split <;> rfl

/-- What the decoded instruction emits, the step emits. -/
theorem step_emits_of_decode {s t : State} {i : Instr} {e : List Byte} (hr : s.run = .running)
    (hd : decode (fetch s).cmd (fetch s).opA (fetch s).opB = .ok i) (h : Emits (exec i) s t e) :
    Emits step s (pcUpdate (fetch s).cmd t) e := by
  obtain ⟨hout, hx⟩ := h
  refine ⟨(pcUpdate_out _ t).trans hout, fun o => ?_⟩
  rw [← pcUpdate_withOut]
  exact step_of_decode (s := { s with out := o }) hr hd (hx o)

/-- Settles O33: no other part of the step than the handler touches the output stream. -/
theorem outputGrowsAtPrnAndInfluencesNothing : Obligations.OutputGrowsAtPrnAndInfluencesNothing := by
  intro s t h
  suffices hemits : ∃ e, Emits step s t e ∧
      (e = [] ∨ ((fetch s).cmd = 0x47 ∧ ∃ r, (fetch s).opA = regByte r ∧ e = [s.reg r])) by
    obtain ⟨e, ⟨hout, hstep⟩, he⟩ := hemits
    exact ⟨e, hout, he, hstep⟩
  obtain ⟨hended, rfl⟩ | ⟨hr, ⟨e, hd⟩, rfl⟩ | ⟨hr, i, u, hd, hx, rfl⟩ := step_cases h
  · exact ⟨[], emits_nil rfl fun o => step_of_not_running (s := { t with out := o }) hended, .inl rfl⟩
  · exact ⟨[], emits_nil rfl fun o => step_of_invalid (s := { s with out := o }) hr hd, .inl rfl⟩
  · obtain hnone | ⟨r, rfl, hprn⟩ := exec_emits hx
    · exact ⟨[], step_emits_of_decode hr hd hnone, .inl rfl⟩
    · obtain ⟨hcmd, hops⟩ := decode_ok_iff.1 hd
      have hopA : (fetch s).opA = regByte r := (List.cons_prefix_cons.1 hops).1.symm
      exact ⟨[s.reg r], step_emits_of_decode hr hd hprn, .inr ⟨hcmd.symm, r, hopA, rfl⟩⟩

end Sys2Proof.Proofs
end

section
/-! Memory as data (10_state.md R20): canonical lists that read alike are equal. -/

namespace Sys2Proof.Proofs

open Sys2Proof.Machine

/-- The cells a canonical memory lists are those that do not read as an unlisted one. -/
theorem mem_iff_get {m : Memory} (hm : Memory.wf m) (c : Host.Cell) :
    c ∈ m ↔ c.2 ≠ Config.cellReset ∧ Memory.get m c.1 = c.2 := by
  obtain ⟨a, v⟩ := c
  induction m with
  | nil => exact iff_of_false (by simp) fun ⟨hv, hget⟩ => hv hget.symm
  | cons d m ih =>
    obtain ⟨b, w⟩ := d
    obtain ⟨hlt, -, hw, hm'⟩ := Memory.wf_cons.1 hm
    rw [List.mem_cons, Memory.get_cons, Prod.mk.injEq]
    by_cases hab : a = b
    · subst hab
      have hnot : (a, v) ∉ m := fun h => Nat.lt_irrefl a (hlt _ h)
      simp only [hnot, or_false, true_and, if_true]
      exact ⟨fun h => ⟨h ▸ hw, h.symm⟩, fun h => h.2.symm⟩
    · simp only [hab, false_and, false_or, if_false]
      exact ih hm'

/-- A cell listed in one of two canonical memories that read alike is listed in the other. -/
theorem mem_of_get_eq {m m' : Memory} (hm : Memory.wf m) (hm' : Memory.wf m')
    (h : ∀ a : Addr, Memory.get m a.toNat = Memory.get m' a.toNat) {c : Host.Cell} (hc : c ∈ m) : c ∈ m' := by
  have haddr : c.1 < 2 ^ Config.alen := (hm.2 c hc).1
  obtain ⟨hv, hget⟩ := (mem_iff_get hm c).1 hc
  have hread : Memory.get m c.1 = Memory.get m' c.1 := by
    have hc1 := h (BitVec.ofNat Config.alen c.1)
    rwa [BitVec.toNat_ofNat, Nat.mod_eq_of_lt haddr] at hc1
  exact (mem_iff_get hm' c).2 ⟨hv, hread ▸ hget⟩

/-- Settles O36: the two lists have the same cells, each in rising order of addresses. -/
theorem canonicalMemoriesThatReadAlikeAreEqual : Obligations.CanonicalMemoriesThatReadAlikeAreEqual := by
  intro m m' hm hm' h
  have hirrefl : Std.Irrefl fun c d : Host.Cell => c.1 < d.1 := ⟨fun c => Nat.lt_irrefl c.1⟩
  have hantisymm : Std.Antisymm fun c d : Host.Cell => c.1 < d.1 := ⟨fun _ _ h h' => absurd h' (Nat.lt_asymm h)⟩
  exact List.Pairwise.eq_of_mem_iff hm.1 hm'.1 fun _ =>
    ⟨mem_of_get_eq hm hm' h, mem_of_get_eq hm' hm fun a => (h a).symm⟩

end Sys2Proof.Proofs
end

section
/-! The host (70_reset_and_hazards.md, 30_encoding.md R67): boot, the exit status, and the loader's comments. -/

namespace Sys2Proof.Proofs

open Sys2Proof.Machine

/-! ### boot -/

/-- Loading writes memory only. -/
theorem placeBytes_eq (s : State) (a : Addr) (bs : List Byte) :
    s.placeBytes a bs = { s with mem := (s.placeBytes a bs).mem } := by
  induction bs generalizing s a with
  | nil => rfl
  | cons b bs ih => exact ih (s.memWrite a b) (addrAdd a 1)

/-- The next address, then `k` more. -/
theorem addrAdd_one_add (a : Addr) (k : Nat) :
    addrAdd a 1 + BitVec.ofNat Config.alen k = a + BitVec.ofNat Config.alen (k + 1) := by
  rw [addrAdd_eq, Nat.add_comm k 1]
  exact word_add_add a 1 k

/-- Loading leaves every byte outside its range as it was. -/
theorem memRead_placeBytes_of_ne {s : State} (hwf : Memory.wf s.mem) {a q : Addr} {bs : List Byte}
    (h : ∀ k < bs.length, q ≠ a + BitVec.ofNat Config.alen k) : (s.placeBytes a bs).memRead q = s.memRead q := by
  induction bs generalizing s a with
  | nil => rfl
  | cons b bs ih =>
    have hq : q ≠ a := by simpa using h 0 (by simp)
    have hrest : ∀ k < bs.length, q ≠ addrAdd a 1 + BitVec.ofNat Config.alen k := fun k hk => by
      rw [addrAdd_one_add]
      exact h (k + 1) (Nat.succ_lt_succ hk)
    rw [State.placeBytes, ih (State.wf_memWrite hwf a b) hrest, State.memRead_memWrite hwf, if_neg hq]

/-- No address is met twice within 256 steps. -/
theorem ne_add_of_lt {k : Nat} (a : Addr) (hpos : 0 < k) (hk : k < 256) : a ≠ a + BitVec.ofNat Config.alen k := by
  intro h
  have hzero : BitVec.ofNat Config.alen k = BitVec.ofNat Config.alen 0 := BitVec.self_eq_add_right.1 h
  have hmod : k % 256 = 0 := congrArg BitVec.toNat hzero
  omega

/-- Loading at most 256 bytes puts each at its own address. -/
theorem memRead_placeBytes {s : State} (hwf : Memory.wf s.mem) (a : Addr) {bs : List Byte} (hlen : bs.length ≤ 256)
    {k : Nat} (hk : k < bs.length) : (s.placeBytes a bs).memRead (a + BitVec.ofNat Config.alen k) = bs[k] := by
  induction bs generalizing s a k with
  | nil => cases hk
  | cons b bs ih =>
    rw [List.length_cons] at hlen
    have hwf' := State.wf_memWrite hwf a b
    cases k with
    | zero =>
      have hafter : ∀ k < bs.length, a ≠ addrAdd a 1 + BitVec.ofNat Config.alen k := fun k hk' => by
        rw [addrAdd_one_add]
        exact ne_add_of_lt a k.succ_pos (by omega)
      rw [BitVec.add_zero, State.placeBytes, memRead_placeBytes_of_ne hwf' hafter, memRead_memWrite_self hwf]
      rfl
    | succ k =>
      rw [← addrAdd_one_add, State.placeBytes]
      exact ih hwf' (addrAdd a 1) (by omega) (Nat.lt_of_succ_lt_succ hk)

/-- An image that fits is loaded from address 0 over the reset state (70_reset_and_hazards.md R162). -/
theorem boot_of_le {image : List Byte} (h : image.length ≤ 256) :
    boot image = some (State.reset.placeBytes Config.loadBase image) :=
  if_pos h

/-- Byte `k` of an image goes to address `k` (70_reset_and_hazards.md R162). -/
theorem loadBase_add (k : Nat) : Config.loadBase + BitVec.ofNat Config.alen k = BitVec.ofNat Config.alen k :=
  BitVec.zero_add _

/-- Settles O38: the bytes go to their own addresses, the others keep reset's 0. -/
theorem bootLoadsTheImage : Obligations.BootLoadsTheImage := by
  refine fun image => ⟨fun hlen => ⟨_, boot_of_le hlen, fun k hk => ?image, fun a ha => ?rest, placeBytes_eq _ _ _⟩,
    fun hlen => if_neg (Nat.not_le.2 hlen)⟩
  case image =>
    rw [← memRead_placeBytes State.wf_reset Config.loadBase hlen hk, loadBase_add]
  case rest =>
    have hout : ∀ k < image.length, a ≠ Config.loadBase + BitVec.ofNat Config.alen k := by
      rintro k hk rfl
      rw [loadBase_add, BitVec.toNat_ofNat] at ha
      exact absurd (ha.trans (Nat.mod_le k _)) (Nat.not_le.2 hk)
    rw [memRead_placeBytes_of_ne State.wf_reset hout, reset_memRead]

/-! ### what the host reads and loads -/

/-- Settles O39: one status for each run state, none for RUNNING. -/
theorem exitStatusOfEachEndState : Obligations.ExitStatusOfEachEndState := by
  intro s
  cases hr : s.run <;> simp [exitStatus, hr]

/-- A line with nothing but a comment or white space holds no byte (30_encoding.md R67). -/
theorem loadLine_of_blank {line : List Char} (h : trim (stripComment line) = []) : loadLine line = .ok none := by
  simp [loadLine, h]

/-- A line's value depends on what stands before its comment only (70_reset_and_hazards.md R163). -/
theorem loadLine_congr {l l' : List Char} (h : stripComment l = stripComment l') : loadLine l = loadLine l' := by
  simp only [loadLine, h]

theorem stripComment_comment (line comment : List Char) :
    stripComment (line ++ '#' :: comment) = stripComment (stripComment line) := by
  rw [stripComment, stripComment, stripComment, List.takeWhile_idem, List.takeWhile_append]
  split
  · next h =>
    rw [List.takeWhile_cons_of_neg (by simp), List.append_nil]
    exact ((List.takeWhile_prefix _).eq_of_length h).symm
  · rfl

/-- A line that holds no byte adds none. -/
theorem loadLines_cons_of_none {line : List Char} (h : loadLine line = .ok none) (ls : List (List Char)) :
    loadLines (line :: ls) = loadLines ls := by
  rw [loadLines, h]
  cases loadLines ls <;> rfl

/-- A line may be exchanged for one that is worth the same. -/
theorem loadLines_cons_congr {l l' : List Char} (h : loadLine l = loadLine l') (ls : List (List Char)) :
    loadLines (l :: ls) = loadLines (l' :: ls) := by
  simp only [loadLines, h]

/-- Lines that load alike load alike behind any other lines. -/
theorem loadLines_append_congr {xs ys : List (List Char)} (h : loadLines xs = loadLines ys)
    (before : List (List Char)) : loadLines (before ++ xs) = loadLines (before ++ ys) := by
  induction before with
  | nil => exact h
  | cons l before ih => simp only [List.cons_append, loadLines, ih]

/-- Settles O40: a blank line holds no byte, and a comment at the end of a line is stripped before the line is read. -/
theorem commentsAndBlankLinesDoNotChangeTheImage : Obligations.CommentsAndBlankLinesDoNotChangeTheImage := by
  constructor
  · intro before after line hblank
    exact loadLines_append_congr (loadLines_cons_of_none (loadLine_of_blank hblank) after) before
  · intro before after line comment
    have hline := loadLine_congr (stripComment_comment line comment)
    exact loadLines_append_congr (loadLines_cons_congr hline after) before

end Sys2Proof.Proofs
end

section
/-! The invariant: canonical memory, and `run`, `cause` and `info` true of the bytes at `pc` (60_exceptions.md R131 to
R139, 41_system_io.md R90). -/

namespace Sys2Proof.Proofs

open Sys2Proof.Machine Sys2Proof.Safety

/-- The status of a machine that has run since reset without ending (60_exceptions.md R136). -/
theorem statusSound_of_running {s : State} (hr : s.run = .running) (hc : s.cause = .none) (hi : s.info = 0) :
    StatusSound s := by
  simp [StatusSound, hr, hc, hi]

/-- The status after a HLT: `pc` still stands at it (41_system_io.md R90). -/
theorem statusSound_setRun_halted {s : State} (hc : s.cause = .none) (hi : s.info = 0)
    (hcmd : (fetch s).cmd = opcodes.hlt) : StatusSound (s.setRun .halted) :=
  ⟨(nomatch ·), fun _ => ⟨hc, hi, hcmd⟩, (nomatch ·)⟩

/-- The status after a rejected opcode (60_exceptions.md R131). -/
theorem statusSound_invalidInstruction {s : State} (hcmd : (fetch s).cmd ∉ opcodes.values) :
    StatusSound (s.enterFault ⟨.invalidInstruction, (fetch s).cmd⟩) :=
  ⟨(nomatch ·), (nomatch ·), fun _ => .inl ⟨rfl, rfl, hcmd⟩⟩

/-- The status after an operand byte that names no register (60_exceptions.md R133). -/
theorem statusSound_registerFault {s : State} {v : Byte} (hbad : namesReg v = false)
    (hv : v = (fetch s).opA ∨ v = (fetch s).opB) : StatusSound (s.enterFault ⟨.registerFault, v⟩) :=
  ⟨(nomatch ·), (nomatch ·), fun _ => .inr ⟨rfl, hbad, hv⟩⟩

/-- The operand bytes of a decoded instruction are among the two fetched. -/
theorem eq_or_eq_of_mem_operands {cmd a b v : Byte} {i : Instr} (hd : decode cmd a b = .ok i)
    (hv : v ∈ i.operands) : v = a ∨ v = b := by
  simpa using (decode_ok_iff.1 hd).2.subset hv

/-- Every step keeps the canonical form of memory. -/
theorem step_wf {s t : State} (hwf : Memory.wf s.mem) (h : step s = .next t) : Memory.wf t.mem := by
  obtain hmem | ⟨-, -, v, hmem⟩ := step_mem h
  · rw [hmem]; exact hwf
  · rw [hmem]; exact State.wf_memWrite hwf _ v

/-- Every step keeps the status sound. -/
theorem step_statusSound {s t : State} (hs : StatusSound s) (h : step s = .next t) : StatusSound t := by
  obtain ⟨-, rfl⟩ | ⟨-, ⟨e, hd⟩, rfl⟩ | ⟨hr, i, u, hd, hx, rfl⟩ := step_cases h
  · exact hs
  · exact statusSound_invalidInstruction (decodeWith_error hd).2
  · obtain ⟨hc, hi⟩ := hs.1 hr
    obtain ⟨-, v, hv, hbad, rfl⟩ | ⟨rfl, rfl⟩ | ⟨-, hrun, hcause, hinfo⟩ := exec_status hx
    · rw [pcUpdate_of_not_running _ (by simp)]
      exact statusSound_registerFault hbad (eq_or_eq_of_mem_operands hd hv)
    · rw [pcUpdate_of_not_running _ (by simp)]
      exact statusSound_setRun_halted hc hi (decode_ok_iff.1 hd).1.symm
    · exact statusSound_of_running ((pcUpdate_run _ u).trans (hrun.trans hr))
        ((pcUpdate_cause _ u).trans (hcause.trans hc)) ((pcUpdate_info _ u).trans (hinfo.trans hi))

/-- Settles O42: the two halves of the invariant. -/
theorem everyStepKeepsTheInvariant : Obligations.EveryStepKeepsTheInvariant :=
  fun _ _ ⟨hwf, hsound⟩ h => ⟨step_wf hwf h, step_statusSound hsound h⟩

/-- Settles O41: reset memory lists no cell, and the machine is RUNNING with no cause. -/
theorem resetMeetsTheInvariant : Obligations.ResetMeetsTheInvariant :=
  ⟨State.wf_reset, statusSound_of_running rfl rfl rfl⟩

/-- Loading keeps the invariant of a running machine. -/
theorem inv_placeBytes {s : State} (hr : s.run = .running) (h : Inv s) (a : Addr) (bs : List Byte) :
    Inv (s.placeBytes a bs) := by
  obtain ⟨hwf, hsound⟩ := h
  obtain ⟨hc, hi⟩ := hsound.1 hr
  refine ⟨State.wf_placeBytes hwf a bs, ?_⟩
  rw [placeBytes_eq]
  exact statusSound_of_running hr hc hi

/-- Settles O43: the booted state meets the invariant, which every step keeps. -/
theorem everyRunOfEveryImageIsSound : Obligations.EveryRunOfEveryImageIsSound := by
  intro image n hlen
  have hinv : Inv (State.reset.placeBytes Config.loadBase image) := inv_placeBytes rfl resetMeetsTheInvariant _ image
  obtain ⟨t, hrun, ht⟩ := run_induction everyStepKeepsTheInvariant n hinv
  exact ⟨_, t, boot_of_le hlen, hrun, ht⟩

end Sys2Proof.Proofs
end
